-- ==== Sys2Proof/Word.lean ====
section
/-! DEFINITION. The two word types of the block: a location of the register space and a sample. -/

namespace Sys2Proof

/-- One location of the register space, an operand, a command word: `W = 32` bits
(00_scope.md R5; the register map needs `W = 32`). -/
abbrev Word := BitVec 32

/-- One sample of the channel reader, and every 8-bit field (00_scope.md R7); also a location number of the
register space, which has 256 locations (20_memory.md R60). -/
abbrev Byte := BitVec 8

end Sys2Proof
end

