-- ==== Sys2Proof/Config.lean ====
section
/-! DEFINITION. The implementation parameters of 00_scope.md section 3, at the values the spec decides for RoboMitzy CORE,
and the free value of the model: what the channel reader presents where no sample has been supplied. -/

namespace Sys2Proof

/-- The configuration record of 00_scope.md section 3 (R5, R7, R8, R9). `WellFormed.lean` says which records the rules allow. -/
structure Params where
  W : Nat
  F : Nat
  N : Nat
  H : Nat
  dtBits : Nat
  iMax : Nat
  gainMax : Nat
  termMax : Nat
  histBits : Nat
  deriving DecidableEq, Repr

namespace Config

/-- Operand width in bits (R5). -/
abbrev W : Nat := 32

/-- Fractional bits (R5). -/
abbrev F : Nat := 8

/-- Number of channels (R7). -/
abbrev N : Nat := 8

/-- Number of mirrored channel pairs, `N/2` (R7: `N` is even; `Tests/Slice0.lean` checks it). -/
abbrev pairs : Nat := 4

/-- `h`, the base-2 logarithm of the number of histogram buckets (R7: `H = 2^h`; `Tests/Slice0.lean` checks it). -/
abbrev hLog : Nat := 4

/-- Number of histogram buckets (R7). -/
abbrev H : Nat := 16

/-- Width to which the elapsed time is saturated (R8). -/
abbrev dtBits : Nat := 16

/-- Width of one histogram counter (R9). -/
abbrev histBits : Nat := 16

/-- `ONE`, the raw value of 1.0 (R5). -/
def one : Int := ((2 ^ F : Nat) : Int)

/-- `FXMAX`, the largest stored value; the least is its negative (R6). -/
def fxMax : Int := ((2 ^ (W - 1) - 1 : Nat) : Int)

/-- `DT_MAX` (R8). -/
def dtMax : Int := ((2 ^ dtBits - 1 : Nat) : Int)

/-- `IMAX`, the bound of the integral accumulator (R8). -/
def iMax : Int := ((2 ^ (W - 2) - 1 : Nat) : Int)

/-- `GAIN_MAX`, the bound of a stored gain (R8). -/
def gainMax : Int := fxMax

/-- `TERM_MAX`, the bound of each of the three PID terms (R8). -/
def termMax : Int := fxMax

/-- `HIST_MAX`, the largest count of a bucket (R9). -/
def histMax : Int := ((2 ^ histBits - 1 : Nat) : Int)

/-- The record these values make. -/
def params : Params :=
  { W := W, F := F, N := N, H := H, dtBits := dtBits, iMax := iMax.toNat, gainMax := gainMax.toNat,
    termMax := termMax.toNat, histBits := histBits }

/-- The free value of the model: the byte on the channel reader's input at the `k`-th sample of a run, where none has been
supplied. 20_memory.md R66: the value is the environment's and a model "assumes nothing about it" (log entry 2).
It has no body, so no proof can see a value of it. -/
opaque freeSample : Nat → Byte

end Config

end Sys2Proof
end

