-- ==== Sys2Proof/Machine/Operands.lean ====
section
/-! DEFINITION. How a register is read as a number and a number is stored (00_scope.md R11), and the exact integer arithmetic
every command uses (R12 to R16). All of it is on unbounded integers (40_fixed_point.md R107). -/

namespace Sys2Proof

/-- `sx(p)`: the two's-complement signed value of a pattern (R11). -/
def sx (p : Word) : Int := p.toInt

/-- `zx(p)`: the pattern itself, unsigned (R11). -/
def zx (p : Word) : Nat := p.toNat

/-- `enc(v)`: the pattern `v mod 2^W` (R11). -/
def enc (v : Int) : Word := BitVec.ofInt 32 v

/-- `sext_k(v)`: a `k`-bit pattern extended to `W` bits by copying its top bit (R11). -/
def sext {k : Nat} (v : BitVec k) : Word := v.signExtend 32

/-- `zext_k(v)`: a `k`-bit pattern extended to `W` bits with zeros (R11). -/
def zext {k : Nat} (v : BitVec k) : Word := v.setWidth 32

/-- A boolean result: 1 or 0 (30_encoding.md R86). -/
def boolWord (b : Bool) : Word := if b then 1#32 else 0#32

/-- `clamp(lo, hi, v)` (R12): the lower bound is tested first (log entry 10 for `lo > hi`). -/
def clamp (lo hi v : Int) : Int := if v < lo then lo else if hi < v then hi else v

/-- `floor_shr(v, k)`: `floor(v / 2^k)` (R13). Lean's `/` on integers rounds down for a positive divisor. -/
def floorShr (v : Int) (k : Nat) : Int := v / ((2 ^ k : Nat) : Int)

/-- `tdiv(a, b)`: division rounding toward zero (R14). -/
def tdiv (a b : Int) : Int := Int.tdiv a b

/-- `mulraw(a, b)`: the exact product rescaled by `2^F`, rounded down, not saturated (R15). -/
def mulraw (a b : Int) : Int := floorShr (a * b) Config.F

/-- `divraw(a, b)`: the dividend scaled up by `2^F`, divided toward zero, not saturated (R16). -/
def divraw (a b : Int) : Int := tdiv (a * Config.one) b

/-- `gainclamp(v)` (41_pid.md R121). -/
def gainClamp (v : Int) : Int := clamp (-Config.gainMax) Config.gainMax v

/-- `gain_oob(v)` (41_pid.md R121). -/
def gainOob (v : Int) : Bool := decide (v < -Config.gainMax) || decide (Config.gainMax < v)

/-- The bounds of an output range of `bits` bits, signed and symmetric or unsigned (10_state.md R31). -/
def outBounds (bits : Nat) (uns : Bool) : Int × Int :=
  if uns then (0, ((2 ^ bits : Nat) : Int) - 1)
  else (-(((2 ^ (bits - 1) : Nat) : Int) - 1), ((2 ^ (bits - 1) : Nat) : Int) - 1)

/-- The operands `PID.SETOUT` takes (41_pid.md R124). -/
def outLegal (bits uns : Nat) : Bool :=
  (uns == 0 && decide (2 ≤ bits) && decide (bits ≤ Config.W)) ||
  (uns == 1 && decide (1 ≤ bits) && decide (bits ≤ Config.W - 1))

/-- `bucket(v)`: the histogram bucket of a sample, a right shift (42_sensor.md R160). -/
def bucket (v : Byte) : Fin Config.H :=
  ⟨v.toNat / 2 ^ (8 - Config.hLog), by have := v.isLt; simp only [Config.H, Config.hLog] at *; omega⟩

/-- `center`: the smallest bucket whose cumulative sum reaches half the total, tested without dividing
(42_sensor.md R161, R162). One always exists (`Laws/Operands.lean`, `center_exists`). -/
def center (hist : List Nat) : Nat :=
  ((List.range hist.length).find? fun c => decide (hist.sum ≤ 2 * (hist.take (c + 1)).sum)).getD (hist.length - 1)

/-- The normalized value of a sample of a channel whose range is not 0, before the byte saturation (42_sensor.md R168, R169). -/
def normalize (lo hi range v : Byte) : Int :=
  tdiv ((clamp lo.toNat hi.toNat v.toNat - lo.toNat) * 255) range.toNat

end Sys2Proof
end

