-- ==== Sys2Proof/Syntax.lean ====
section
/-! DEFINITION. The command set RMC-1 (30_encoding.md R82), the names of the register map (20_memory.md R62), host
transactions (20_memory.md R61) and the assembler notation for lists of them (30_encoding.md R88, R89). -/

namespace Sys2Proof

/-- The sixteen commands of 30_encoding.md R82. A command has no operand field: its operands stand in `A0`, `A1`, `A2` (R86). -/
inductive Instr where
  | fxMul
  | fxDiv
  | fxSat
  | fxMac
  | pidCfg
  | pidCfgstd
  | pidSetout
  | pidStep
  | snsReset
  | snsRead
  | snsCal
  | snsPol
  | snsCoeff
  | snsPos
  | snsOnfloor
  | snsOnline
  deriving DecidableEq, Repr

/-- The mapped locations of the register space by name (20_memory.md R62). Slots past `N` or `H` of an array window are
unmapped, so an index is a `Fin`. -/
inductive Loc where
  | cmd
  | status
  | a0
  | a1
  | a2
  | r0
  | acc
  | satcnt
  | param
  | pidKp
  | pidKi
  | pidKd
  | pidOutcfg
  | pidOutmin
  | pidOutmax
  | pidLasterr
  | pidIacc
  | pidLasttime
  | pidLastout
  | snsCfg
  | snsVthr
  | snsDthr
  | snsFloor
  | snsLine
  | snsState
  | snsChsel
  | snsRaw (i : Fin Config.N)
  | snsMin (i : Fin Config.N)
  | snsMax (i : Fin Config.N)
  | snsRange (i : Fin Config.N)
  | snsNorm (i : Fin Config.N)
  | snsCoef (i : Fin Config.N)
  | snsHist (b : Fin Config.H)
  deriving DecidableEq, Repr

/-- The two kinds of host transaction (20_memory.md R61): `RD(n)` and `WR(n, p)`. -/
inductive Txn where
  | rd (n : Byte)
  | wr (n : Byte) (p : Word)
  deriving DecidableEq, Repr

/-- What can happen at the block's host side, one at a time: a transaction; a transaction together with the samples the
environment supplies during it (a command with its bracket, 30_encoding.md R88); a write of the value the host read last
(the second half of `FEED`, 30_encoding.md R89); loss and return of power (60_exceptions.md R205, 70_reset_and_hazards.md R210). -/
inductive HostOp where
  | txn (t : Txn)
  | sampled (t : Txn) (samples : List Byte)
  | wrLast (n : Byte)
  | powerCycle
  deriving DecidableEq, Repr

/-- A register in a line of assembly: a name of the register map, or a number (30_encoding.md R88). -/
inductive Reg where
  | name (l : Loc)
  | number (n : Byte)
  deriving DecidableEq, Repr

/-- A value in a line of assembly: a decimal integer or a hexadecimal pattern (30_encoding.md R88). -/
inductive Value where
  | dec (v : Int)
  | hex (p : Nat)
  deriving DecidableEq, Repr

/-- A mnemonic followed by operands (30_encoding.md R89). -/
inductive Pseudo where
  | fxMul (a b : Value)
  | fxDiv (a b : Value)
  | fxSat (v bits : Value)
  | fxMac (a b : Value)
  | pidCfg (kp ki kd : Value)
  | pidCfgstd (kp ti td : Value)
  | pidSetout (bits uns : Value)
  | pidStep (e now : Value)
  | snsCoeff (wf : Value)
  | clrAcc
  | clrFlags
  | feed
  deriving DecidableEq, Repr

/-- A line of assembly (30_encoding.md R88): a write, a read, a bare mnemonic with the samples in its bracket, or a
pseudo-instruction. -/
inductive Line where
  | wr (r : Reg) (v : Value)
  | rd (r : Reg)
  | cmd (i : Instr) (samples : List Byte)
  | pseudo (p : Pseudo)
  deriving DecidableEq, Repr

end Sys2Proof
end

