-- ==== Sys2Proof/WellFormed.lean ====
section
/-! DEFINITION. What the spec lets be written: which parameter records are a configuration of the block, and which lines
of assembly are lines of the notation. A command has no operand field, so every `Instr` is well formed. -/

namespace Sys2Proof

/-- 00_scope.md R5: `0 < F < W - 1`, and the register map needs `W = 32`. -/
def Params.wfScale (p : Params) : Bool :=
  p.W == 32 && decide (0 < p.F) && decide (p.F < p.W - 1)

/-- 00_scope.md R7: `N` even, `2 <= N <= 16`; `H = 2^h` with `1 <= h <= 4`
(93_implementation_defined.md U6: any other record is refused). -/
def Params.wfArrays (p : Params) : Bool :=
  p.N % 2 == 0 && decide (2 ≤ p.N) && decide (p.N ≤ 16) && [2, 4, 8, 16].contains p.H

/-- 00_scope.md R8: `1 <= IMAX < FXMAX`, `1 <= GAIN_MAX <= FXMAX`, `1 <= DT_BITS <= 32`, `TERM_MAX <= FXMAX`. -/
def Params.wfPid (p : Params) : Bool :=
  decide (1 ≤ p.iMax) && decide (p.iMax < 2 ^ (p.W - 1) - 1) && decide (1 ≤ p.gainMax) &&
  decide (p.gainMax ≤ 2 ^ (p.W - 1) - 1) && decide (1 ≤ p.dtBits) && decide (p.dtBits ≤ 32) &&
  decide (p.termMax ≤ 2 ^ (p.W - 1) - 1)

/-- A parameter record that is a configuration of this block. -/
def Params.wf (p : Params) : Bool :=
  p.wfScale && p.wfArrays && p.wfPid

/-- Every command is well formed (30_encoding.md R80: no register-number fields, no immediate fields). -/
def Instr.wf (i : Instr) : Bool :=
  match i with
  | .fxMul | .fxDiv | .fxSat | .fxMac | .pidCfg | .pidCfgstd | .pidSetout | .pidStep => true
  | .snsReset | .snsRead | .snsCal | .snsPol | .snsCoeff | .snsPos | .snsOnfloor | .snsOnline => true

/-- The commands that take samples (20_memory.md R66: only inside `SNS.READ`, `SNS.CAL` and `SNS.POS`). -/
def Instr.samples (i : Instr) : Bool :=
  match i with
  | .snsRead | .snsCal | .snsPos => true
  | .fxMul | .fxDiv | .fxSat | .fxMac | .pidCfg | .pidCfgstd | .pidSetout | .pidStep => false
  | .snsReset | .snsPol | .snsCoeff | .snsOnfloor | .snsOnline => false

/-- A value is one `W` bits can hold: a decimal integer in the domain of `enc` (00_scope.md R11), a hexadecimal pattern
below `2^W` (log entry 14). -/
def Value.wf (v : Value) : Bool :=
  match v with
  | .dec v => decide (-(2 ^ 31) ≤ v) && decide (v < 2 ^ 31)
  | .hex p => decide (p < 2 ^ 32)

/-- The values of a pseudo-instruction. -/
def Pseudo.values (p : Pseudo) : List Value :=
  match p with
  | .fxMul a b => [a, b]
  | .fxDiv a b => [a, b]
  | .fxSat v bits => [v, bits]
  | .fxMac a b => [a, b]
  | .pidCfg kp ki kd => [kp, ki, kd]
  | .pidCfgstd kp ti td => [kp, ti, td]
  | .pidSetout bits uns => [bits, uns]
  | .pidStep e now => [e, now]
  | .snsCoeff wf => [wf]
  | .clrAcc => []
  | .clrFlags => []
  | .feed => []

/-- A line of the notation: its values are ones `W` bits can hold, and a bracket holds `N` samples after a command that takes
them and none after another (30_encoding.md R88). -/
def Line.wf (l : Line) : Bool :=
  match l with
  | .wr _ v => v.wf
  | .rd _ => true
  | .cmd i samples => if i.samples then samples.length == Config.N else samples.isEmpty
  | .pseudo p => p.values.all Value.wf

end Sys2Proof
end

