-- ==== Sys2Proof/Decode.lean ====
section
/-! DEFINITION. The encodings of 30_encoding.md: command words (R80 to R87), the numbers of the register map
(20_memory.md R62), the expansion of assembly lines (R88, R89) and the line encoding of a transaction (R88). -/

namespace Sys2Proof

/-- Why a word is not a command (30_encoding.md R83). All three complete the same way, as an illegal command (R84). -/
inductive Reject where
  /-- A nonzero bit in `31:8`. -/
  | reservedBits
  /-- `unit` 0 or 4 to 15. -/
  | noUnit
  /-- A `func` the unit does not have. -/
  | noFunc
  deriving DecidableEq, Repr

/-- The `unit` field, bits 7:4 (R80). -/
def unitField (p : Word) : Nat := (p.extractLsb' 4 4).toNat

/-- The `func` field, bits 3:0 (R80). -/
def funcField (p : Word) : Nat := (p.extractLsb' 0 4).toNat

/-- The commands of unit 1, the fixed-point unit (R82). -/
def decodeFx (func : Nat) : Except Reject Instr :=
  match func with
  | 0 => .ok .fxMul
  | 1 => .ok .fxDiv
  | 2 => .ok .fxSat
  | 3 => .ok .fxMac
  | _ => .error .noFunc

/-- The commands of unit 2, the PID controller unit (R82). -/
def decodePid (func : Nat) : Except Reject Instr :=
  match func with
  | 0 => .ok .pidCfg
  | 1 => .ok .pidCfgstd
  | 2 => .ok .pidSetout
  | 3 => .ok .pidStep
  | _ => .error .noFunc

/-- The commands of unit 3, the sensor array estimator unit (R82). -/
def decodeSns (func : Nat) : Except Reject Instr :=
  match func with
  | 0 => .ok .snsReset
  | 1 => .ok .snsRead
  | 2 => .ok .snsCal
  | 3 => .ok .snsPol
  | 4 => .ok .snsCoeff
  | 5 => .ok .snsPos
  | 6 => .ok .snsOnfloor
  | 7 => .ok .snsOnline
  | _ => .error .noFunc

/-- The decode procedure, total on every 32-bit word (R87). -/
def decode (p : Word) : Except Reject Instr :=
  if p.extractLsb' 8 24 ≠ 0#24 then .error .reservedBits
  else
    match unitField p with
    | 1 => decodeFx (funcField p)
    | 2 => decodePid (funcField p)
    | 3 => decodeSns (funcField p)
    | _ => .error .noUnit

/-- The opcode byte of a command (R82). -/
def Instr.opcode (i : Instr) : Byte :=
  match i with
  | .fxMul => 0x10
  | .fxDiv => 0x11
  | .fxSat => 0x12
  | .fxMac => 0x13
  | .pidCfg => 0x20
  | .pidCfgstd => 0x21
  | .pidSetout => 0x22
  | .pidStep => 0x23
  | .snsReset => 0x30
  | .snsRead => 0x31
  | .snsCal => 0x32
  | .snsPol => 0x33
  | .snsCoeff => 0x34
  | .snsPos => 0x35
  | .snsOnfloor => 0x36
  | .snsOnline => 0x37

/-- The word of a command: the opcode byte zero-extended to 32 bits (R87). -/
def encode (i : Instr) : Word := 0#24 ++ i.opcode

/-- What the decoder reads from an instruction of the opcode table: the word is presented whole, bit 0 its least significant
bit (20_memory.md R68: there is no byte order). A number that 32 bits cannot hold is no command word (log entry 15). -/
def decodeTableWord (nbits w : Nat) : Option Instr :=
  let v := w % 2 ^ nbits
  if v < 2 ^ 32 then
    match decode (BitVec.ofNat 32 v) with
    | .ok i => some i
    | .error _ => none
  else none

/-- The number of a mapped location (20_memory.md R62). -/
def Loc.number (l : Loc) : Byte :=
  match l with
  | .cmd => 0x00
  | .status => 0x01
  | .a0 => 0x02
  | .a1 => 0x03
  | .a2 => 0x04
  | .r0 => 0x05
  | .acc => 0x06
  | .satcnt => 0x07
  | .param => 0x08
  | .pidKp => 0x10
  | .pidKi => 0x11
  | .pidKd => 0x12
  | .pidOutcfg => 0x13
  | .pidOutmin => 0x14
  | .pidOutmax => 0x15
  | .pidLasterr => 0x16
  | .pidIacc => 0x17
  | .pidLasttime => 0x18
  | .pidLastout => 0x19
  | .snsCfg => 0x20
  | .snsVthr => 0x21
  | .snsDthr => 0x22
  | .snsFloor => 0x23
  | .snsLine => 0x24
  | .snsState => 0x25
  | .snsChsel => 0x26
  | .snsRaw i => BitVec.ofNat 8 (0x40 + i)
  | .snsMin i => BitVec.ofNat 8 (0x50 + i)
  | .snsMax i => BitVec.ofNat 8 (0x60 + i)
  | .snsRange i => BitVec.ofNat 8 (0x70 + i)
  | .snsNorm i => BitVec.ofNat 8 (0x80 + i)
  | .snsCoef i => BitVec.ofNat 8 (0x90 + i)
  | .snsHist b => BitVec.ofNat 8 (0xA0 + b)

/-- The slot of a location number in the array window that starts at `base` and has `size` mapped slots. -/
def windowSlot (base size n : Nat) : Option (Fin size) :=
  if h : base ≤ n ∧ n < base + size then some ⟨n - base, by omega⟩ else none

/-- The array windows of the register map by the number's upper digit (20_memory.md R62). -/
def Loc.ofWindow (n : Nat) : Option Loc :=
  match n / 16 with
  | 0x4 => (windowSlot 0x40 Config.N n).map .snsRaw
  | 0x5 => (windowSlot 0x50 Config.N n).map .snsMin
  | 0x6 => (windowSlot 0x60 Config.N n).map .snsMax
  | 0x7 => (windowSlot 0x70 Config.N n).map .snsRange
  | 0x8 => (windowSlot 0x80 Config.N n).map .snsNorm
  | 0x9 => (windowSlot 0x90 Config.N n).map .snsCoef
  | 0xA => (windowSlot 0xA0 Config.H n).map .snsHist
  | _ => none

/-- The location a number stands for; `none` where it is unmapped (20_memory.md R62). -/
def Loc.ofNumber (n : Byte) : Option Loc :=
  match n.toNat with
  | 0x00 => some .cmd
  | 0x01 => some .status
  | 0x02 => some .a0
  | 0x03 => some .a1
  | 0x04 => some .a2
  | 0x05 => some .r0
  | 0x06 => some .acc
  | 0x07 => some .satcnt
  | 0x08 => some .param
  | 0x10 => some .pidKp
  | 0x11 => some .pidKi
  | 0x12 => some .pidKd
  | 0x13 => some .pidOutcfg
  | 0x14 => some .pidOutmin
  | 0x15 => some .pidOutmax
  | 0x16 => some .pidLasterr
  | 0x17 => some .pidIacc
  | 0x18 => some .pidLasttime
  | 0x19 => some .pidLastout
  | 0x20 => some .snsCfg
  | 0x21 => some .snsVthr
  | 0x22 => some .snsDthr
  | 0x23 => some .snsFloor
  | 0x24 => some .snsLine
  | 0x25 => some .snsState
  | 0x26 => some .snsChsel
  | n => Loc.ofWindow n

/-- The location number a line of assembly names (30_encoding.md R88). -/
def Reg.toNumber (r : Reg) : Byte :=
  match r with
  | .name l => l.number
  | .number n => n

/-- The pattern a line's value stores: `enc` of a decimal integer, a hexadecimal pattern itself (30_encoding.md R88). -/
def Value.pattern (v : Value) : Word :=
  match v with
  | .dec v => enc v
  | .hex p => BitVec.ofNat 32 p

/-- A write of a named location. -/
def wrLoc (l : Loc) (v : Value) : HostOp := .txn (.wr l.number v.pattern)

/-- The write that issues a command (30_encoding.md R88: `WR(0x00, match)`). -/
def issue (i : Instr) : HostOp := .txn (.wr Loc.cmd.number (encode i))

/-- A bare mnemonic with its bracket: the same transaction, together with what the environment supplies to this command's
calls of `SampleRead` and to no other's (30_encoding.md R88). An empty bracket supplies nothing. -/
def issueWith (i : Instr) (samples : List Byte) : HostOp :=
  match samples with
  | [] => issue i
  | v :: vs => .sampled (.wr Loc.cmd.number (encode i)) (v :: vs)

/-- The expansion of a pseudo-instruction: writes of the operand registers in order, then the command (30_encoding.md R89). -/
def Pseudo.expand (p : Pseudo) : List HostOp :=
  match p with
  | .fxMul a b => [wrLoc .a0 a, wrLoc .a1 b, issue .fxMul]
  | .fxDiv a b => [wrLoc .a0 a, wrLoc .a1 b, issue .fxDiv]
  | .fxSat v bits => [wrLoc .a0 v, wrLoc .a1 bits, issue .fxSat]
  | .fxMac a b => [wrLoc .a0 a, wrLoc .a1 b, issue .fxMac]
  | .pidCfg kp ki kd => [wrLoc .a0 kp, wrLoc .a1 ki, wrLoc .a2 kd, issue .pidCfg]
  | .pidCfgstd kp ti td => [wrLoc .a0 kp, wrLoc .a1 ti, wrLoc .a2 td, issue .pidCfgstd]
  | .pidSetout bits uns => [wrLoc .a0 bits, wrLoc .a1 uns, issue .pidSetout]
  | .pidStep e now => [wrLoc .a0 e, wrLoc .a1 now, issue .pidStep]
  | .snsCoeff wf => [wrLoc .a0 wf, issue .snsCoeff]
  | .clrAcc => [wrLoc .acc (.dec 0)]
  | .clrFlags => [wrLoc .status (.hex 0x00000F00)]
  | .feed => [.txn (.rd Loc.r0.number), .wrLast Loc.a0.number]

/-- The host operations a line of assembly stands for (30_encoding.md R88). -/
def Line.expand (l : Line) : List HostOp :=
  match l with
  | .wr r v => [.txn (.wr r.toNumber v.pattern)]
  | .rd r => [.txn (.rd r.toNumber)]
  | .cmd i samples => [issueWith i samples]
  | .pseudo p => p.expand

/-- The sixteen hexadecimal digits of the line encoding. -/
def hexDigits : List Char :=
  ['0', '1', '2', '3', '4', '5', '6', '7', '8', '9', 'A', 'B', 'C', 'D', 'E', 'F']

/-- A number below `16^k` as `k` hexadecimal digits. -/
def toHex (k n : Nat) : List Char :=
  match k with
  | 0 => []
  | k + 1 => toHex k (n / 16) ++ [hexDigits.getD (n % 16) '0']

/-- The number that a list of hexadecimal digits, appended to the digits of `acc`, stands for. -/
def ofHex (acc : Nat) (cs : List Char) : Option Nat :=
  match cs with
  | [] => some acc
  | c :: cs => if hexDigits.idxOf c < 16 then ofHex (16 * acc + hexDigits.idxOf c) cs else none

/-- The encoding of a transaction as a line: `W nn pppppppp` or `R nn` (30_encoding.md R88). -/
def Txn.toLine (t : Txn) : List Char :=
  match t with
  | .rd n => 'R' :: ' ' :: toHex 2 n.toNat
  | .wr n p => 'W' :: ' ' :: (toHex 2 n.toNat ++ ' ' :: toHex 8 p.toNat)

/-- The transaction a line encodes; `none` where the line is not of either form. -/
def Txn.ofLine (cs : List Char) : Option Txn :=
  match cs with
  | ['R', ' ', a, b] => (ofHex 0 [a, b]).map fun n => .rd (BitVec.ofNat 8 n)
  | 'W' :: ' ' :: a :: b :: ' ' :: ds =>
    if ds.length = 8 then
      match ofHex 0 [a, b], ofHex 0 ds with
      | some n, some p => some (.wr (BitVec.ofNat 8 n) (BitVec.ofNat 32 p))
      | _, _ => none
    else none
  | _ => none

end Sys2Proof
end

