-- ==== Sys2Proof/Machine/State.lean ====
section
/-! DEFINITION. The state of the block (10_state.md R20), unit by unit, with what stands at its ports; the reasons a step can
stop; the state right after power-on reset (70_reset_and_hazards.md R210). -/

namespace Sys2Proof.Machine

/-- The completion codes (60_exceptions.md R190). `STATUS.CODE` is 4 bits wide; the values 4 to 15 never appear
(10_state.md R25; log entry 9). -/
inductive Code where
  | ok
  | divzero
  | cfgerr
  | illegal
  deriving DecidableEq, Repr

/-- The estimator's place in its lifecycle (10_state.md R36), all four values of the 2-bit `PHASE`. -/
inductive Phase where
  | uninitialized
  | calibrating
  | calibrated
  | reading
  deriving DecidableEq, Repr

/-- The fields of `STATUS` (10_state.md R25). Every other bit reads 0 and ignores writes. -/
structure Status where
  code : Code
  dz   : Bool
  ce   : Bool
  sat  : Bool
  ill  : Bool
  deriving DecidableEq, Repr

/-- The interface registers (10_state.md R22 to R27). -/
structure Iface where
  a0     : Word
  a1     : Word
  a2     : Word
  r0     : Word
  acc    : Word
  status : Status
  satcnt : BitVec 32
  deriving DecidableEq, Repr

/-- The PID unit (10_state.md R29 to R31). Signed values are held as `W`-bit patterns (log entry 8). -/
structure Pid where
  kp       : Word
  ki       : Word
  kd       : Word
  outBits  : BitVec 6
  outUns   : Bool
  outMin   : Word
  outMax   : Word
  lastErr  : Word
  iacc     : Word
  lastTime : BitVec 32
  lastOut  : Word
  deriving DecidableEq, Repr

/-- The sensor unit (10_state.md R32 to R39). -/
structure Sns where
  raw      : Vector Byte Config.N
  min      : Vector Byte Config.N
  max      : Vector Byte Config.N
  range    : Vector Byte Config.N
  norm     : Vector Byte Config.N
  coef     : Vector Word Config.N
  hist     : Vector (BitVec Config.histBits) Config.H
  polarity : Bool
  valid    : Bool
  phase    : Phase
  digital  : Bool
  vthr     : Byte
  dthr     : Byte
  floorLo  : Byte
  floorHi  : Byte
  lineLo   : Byte
  lineHi   : Byte
  chsel    : BitVec 4
  deriving DecidableEq, Repr

/-- What the outside world can observe (20_memory.md R67): a value `RD` returned, or a sample taken at a channel. -/
inductive Event where
  | read (n : Byte) (v : Word)
  | sample (i : Fin Config.N) (v : Byte)
  deriving DecidableEq, Repr

/-- The model's own fields, what stands at the block's ports: the host operations not yet taken, each with the samples of its own
bracket (log entry 1), the samples supplied to transactions that bring none of their own and the number of samples taken
(log entry 2), the observable events, oldest first (log entry 3). -/
structure Env where
  pending  : List HostOp
  samples  : List Byte
  sampleNo : Nat
  trace    : List Event
  deriving DecidableEq, Repr

/-- The whole state: the block (`iface`, `pid`, `sns`) and its ports (`env`). -/
structure State where
  iface : Iface
  pid   : Pid
  sns   : Sns
  env   : Env
  deriving DecidableEq, Repr

/-- There is no fault: no condition in the block stops it (60_exceptions.md R194, R200). -/
inductive Fault where
  deriving DecidableEq, Repr

/-- The reasons a step is refused. -/
inductive Refusal where
  /-- An instruction of the opcode table without a meaning: raised by no arm, since every command has its meaning.
  Safe: a refusal proves nothing false. -/
  | notModelled (mnemonic : String)
  deriving DecidableEq, Repr

/-- The interface registers at reset (10_state.md section 7). -/
def Iface.reset : Iface :=
  { a0 := 0, a1 := 0, a2 := 0, r0 := 0, acc := 0,
    status := { code := .ok, dz := false, ce := false, sat := false, ill := false }, satcnt := 0 }

/-- The PID unit at reset: gains 0, no transients, output range signed 16 bits (10_state.md section 7). -/
def Pid.reset : Pid :=
  { kp := 0, ki := 0, kd := 0, outBits := 16, outUns := false, outMin := BitVec.ofInt 32 (-32767),
    outMax := BitVec.ofInt 32 32767, lastErr := 0, iacc := 0, lastTime := 0, lastOut := 0 }

/-- The sensor unit at reset (10_state.md section 7). -/
def Sns.reset : Sns :=
  { raw := Vector.replicate Config.N 0, min := Vector.replicate Config.N 255, max := Vector.replicate Config.N 0,
    range := Vector.replicate Config.N 0, norm := Vector.replicate Config.N 0, coef := Vector.replicate Config.N 0,
    hist := Vector.replicate Config.H 0, polarity := true, valid := false, phase := .uninitialized,
    digital := false, vthr := 64, dthr := 128, floorLo := 0, floorHi := 255, lineLo := 0, lineHi := 255, chsel := 0 }

/-- Nothing pending, nothing supplied, nothing observed (log entries 1, 2, 3). -/
def Env.reset : Env := { pending := [], samples := [], sampleNo := 0, trace := [] }

/-- The machine right after power-on reset (70_reset_and_hazards.md R210). -/
def State.reset : State := { iface := .reset, pid := .reset, sns := .reset, env := .reset }

end Sys2Proof.Machine
end

