-- ==== Sys2Proof/Machine/Flags.lean ====
section
/-! DEFINITION. `STATUS` and `SATCNT`: completion codes, sticky flags, saturation events (10_state.md R25 to R27,
60_exceptions.md R190, R195, R199, 00_scope.md R12). -/

namespace Sys2Proof.Machine

/-- The number of a completion code (60_exceptions.md R190). -/
def Code.bits (c : Code) : BitVec 4 :=
  match c with
  | .ok => 0
  | .divzero => 1
  | .cfgerr => 2
  | .illegal => 3

/-- `STATUS` as the host reads it: `CODE` in 3:0, `DZ` 8, `CE` 9, `SAT` 10, `ILL` 11, every other bit 0 (10_state.md R25). -/
def Status.word (st : Status) : Word :=
  0#20 ++ BitVec.ofBool st.ill ++ BitVec.ofBool st.sat ++ BitVec.ofBool st.ce ++ BitVec.ofBool st.dz ++ 0#4 ++ st.code.bits

/-- A host write to `STATUS`: each sticky flag whose bit is 1 is cleared, `CODE` never changes (10_state.md R26). -/
def Status.clear (st : Status) (p : Word) : Status :=
  { st with
    dz := st.dz && !p.getLsbD 8, ce := st.ce && !p.getLsbD 9, sat := st.sat && !p.getLsbD 10, ill := st.ill && !p.getLsbD 11 }

/-- `STATUS.CODE <- c`: the last thing a command does (60_exceptions.md R190). -/
def State.complete (s : State) (c : Code) : State :=
  { s with iface := { s.iface with status := { s.iface.status with code := c } } }

/-- `STATUS.DZ <- 1`. -/
def State.setDz (s : State) : State :=
  { s with iface := { s.iface with status := { s.iface.status with dz := true } } }

/-- `STATUS.CE <- 1`. -/
def State.setCe (s : State) : State :=
  { s with iface := { s.iface with status := { s.iface.status with ce := true } } }

/-- `STATUS.ILL <- 1`. -/
def State.setIll (s : State) : State :=
  { s with iface := { s.iface with status := { s.iface.status with ill := true } } }

/-- `SATCNT` after one more event: it holds at `2^32 - 1` (10_state.md R27). -/
def bumpSatcnt (n : BitVec 32) : BitVec 32 :=
  if n.toNat < 2 ^ 32 - 1 then n + 1 else n

/-- One saturation event: `SATCNT <- min(SATCNT + 1, 2^32 - 1)`, `STATUS.SAT <- 1` (00_scope.md R12). -/
def State.recordSat (s : State) : State :=
  { s with
    iface := { s.iface with satcnt := bumpSatcnt s.iface.satcnt, status := { s.iface.status with sat := true } } }

/-- A saturation event when the clamp changes its argument (00_scope.md R12). -/
def State.noteSat (s : State) (lo hi v : Int) : State :=
  if clamp lo hi v = v then s else s.recordSat

/-- `sat(lo, hi, v)`: the clamped value, and the state with the event recorded if there was one (00_scope.md R12). -/
def sat (lo hi v : Int) (s : State) : Int × State :=
  (clamp lo hi v, s.noteSat lo hi v)

/-- `satW(v)`: to the symmetric `W`-bit range (00_scope.md R12). -/
def satW (v : Int) (s : State) : Int × State :=
  sat (-Config.fxMax) Config.fxMax v s

/-- A boolean configuration error: the flag and the code together (60_exceptions.md R190, R192). -/
def State.configError (s : State) : State :=
  s.setCe.complete .cfgerr

end Sys2Proof.Machine
end

