-- ==== Sys2Proof/Machine/Ops.lean ====
section
/-! DEFINITION. The named operations over the state: register writes of commands, the channel port, the register space as the
host sees it, the illegal command, power-on reset. There is no exception to take: every condition completes with a code
(60_exceptions.md R194). -/

namespace Sys2Proof.Machine

/-- `R0 <- v` (10_state.md R23). -/
def State.setR0 (s : State) (v : Word) : State := { s with iface := { s.iface with r0 := v } }

/-- `ACC <- v` (10_state.md R24). -/
def State.setAcc (s : State) (v : Word) : State := { s with iface := { s.iface with acc := v } }

/-- The PID unit replaced. -/
def State.setPid (s : State) (x : Pid) : State := { s with pid := x }

/-- The sensor unit replaced. -/
def State.setSns (s : State) (x : Sns) : State := { s with sns := x }

/-- The lifecycle mark replaced (10_state.md R36). -/
def State.setPhase (s : State) (p : Phase) : State := { s with sns := { s.sns with phase := p } }

/-- The byte the channel reader presents `j` samples from now: the supplied one, or the free value where none is supplied
(20_memory.md R66; log entry 2). -/
def State.incoming (s : State) (j : Nat) : Byte :=
  s.env.samples.getD j (Config.freeSample (s.env.sampleNo + j))

/-- The ports after one sample of channel `i` with value `v`: the byte is used up and the event observable (20_memory.md R67). -/
def Env.take (x : Env) (i : Fin Config.N) (v : Byte) : Env :=
  { x with samples := x.samples.drop 1, sampleNo := x.sampleNo + 1, trace := x.trace ++ [.sample i v] }

/-- `RAW[i] <- SampleRead(i)`: `CHSEL <- i`, take the byte, store it (20_memory.md R66, 42_sensor.md R151). -/
def State.readChannel (s : State) (i : Fin Config.N) : State :=
  let v := s.incoming 0
  { s with sns := { s.sns with chsel := BitVec.ofNat 4 i, raw := s.sns.raw.set i v }, env := s.env.take i v }

/-- The read-all procedure: channels `0, 1, ..., N-1` in that order (42_sensor.md R151). -/
def State.readAll (s : State) : State :=
  (List.finRange Config.N).foldl State.readChannel s

/-- A word that is not a command: code `ILLEGAL` and the flag, nothing else (30_encoding.md R84). -/
def State.illegalCommand (s : State) : State :=
  s.setIll.complete .illegal

/-- Power-on reset: every piece of block state at its reset value (70_reset_and_hazards.md R210); what stands at the ports is
not the block's and stays. -/
def State.powerOn (s : State) : State :=
  { s with iface := .reset, pid := .reset, sns := .reset }

/-- The number of a phase (10_state.md R36). -/
def Phase.bits (p : Phase) : BitVec 2 :=
  match p with
  | .uninitialized => 0
  | .calibrating => 1
  | .calibrated => 2
  | .reading => 3

/-- `PARAM`: `W`, `H`, `N`, `F` from the top byte down (10_state.md R28). -/
def paramWord : Word :=
  BitVec.ofNat 8 Config.W ++ BitVec.ofNat 8 Config.H ++ BitVec.ofNat 8 Config.N ++ BitVec.ofNat 8 Config.F

/-- The content of a mapped location as the host reads it (20_memory.md R62); `CMD` reads 0 (R63). -/
def State.readLoc (s : State) (l : Loc) : Word :=
  match l with
  | .cmd => 0
  | .status => s.iface.status.word
  | .a0 => s.iface.a0
  | .a1 => s.iface.a1
  | .a2 => s.iface.a2
  | .r0 => s.iface.r0
  | .acc => s.iface.acc
  | .satcnt => s.iface.satcnt
  | .param => paramWord
  | .pidKp => s.pid.kp
  | .pidKi => s.pid.ki
  | .pidKd => s.pid.kd
  | .pidOutcfg => 0#23 ++ BitVec.ofBool s.pid.outUns ++ 0#2 ++ s.pid.outBits
  | .pidOutmin => s.pid.outMin
  | .pidOutmax => s.pid.outMax
  | .pidLasterr => s.pid.lastErr
  | .pidIacc => s.pid.iacc
  | .pidLasttime => s.pid.lastTime
  | .pidLastout => s.pid.lastOut
  | .snsCfg => zext (BitVec.ofBool s.sns.digital)
  | .snsVthr => zext s.sns.vthr
  | .snsDthr => zext s.sns.dthr
  | .snsFloor => zext (s.sns.floorHi ++ s.sns.floorLo)
  | .snsLine => zext (s.sns.lineHi ++ s.sns.lineLo)
  | .snsState => zext (BitVec.ofBool s.sns.valid ++ BitVec.ofBool s.sns.polarity ++ s.sns.phase.bits)
  | .snsChsel => zext s.sns.chsel
  | .snsRaw i => zext s.sns.raw[i]
  | .snsMin i => zext s.sns.min[i]
  | .snsMax i => zext s.sns.max[i]
  | .snsRange i => zext s.sns.range[i]
  | .snsNorm i => zext s.sns.norm[i]
  | .snsCoef i => s.sns.coef[i]
  | .snsHist b => zext s.sns.hist[b]

/-- The value `RD(n)` returns; an unmapped location reads 0 (20_memory.md R61, R63). -/
def State.readReg (s : State) (n : Byte) : Word :=
  match Loc.ofNumber n with
  | some l => s.readLoc l
  | none => 0

/-- A host write to `ACC` stores the saturated value and records the event if there is one (10_state.md R24, 20_memory.md R64). -/
def State.writeAcc (s : State) (p : Word) : State :=
  let (v, s) := satW (sx p) s
  s.setAcc (enc v)

/-- The effect of a host write to a mapped location other than `CMD`: the writable fields take their bits, a read-only location
ignores the write (20_memory.md R62 to R64). A write to `CMD` runs a command and is not this operation's (`Transact.lean`). -/
def State.writeLoc (s : State) (l : Loc) (p : Word) : State :=
  match l with
  | .status => { s with iface := { s.iface with status := s.iface.status.clear p } }
  | .a0 => { s with iface := { s.iface with a0 := p } }
  | .a1 => { s with iface := { s.iface with a1 := p } }
  | .a2 => { s with iface := { s.iface with a2 := p } }
  | .acc => s.writeAcc p
  | .satcnt => { s with iface := { s.iface with satcnt := p } }
  | .snsCfg => { s with sns := { s.sns with digital := p.getLsbD 0 } }
  | .snsVthr => { s with sns := { s.sns with vthr := p.extractLsb' 0 8 } }
  | .snsDthr => { s with sns := { s.sns with dthr := p.extractLsb' 0 8 } }
  | .snsFloor => { s with sns := { s.sns with floorLo := p.extractLsb' 0 8, floorHi := p.extractLsb' 8 8 } }
  | .snsLine => { s with sns := { s.sns with lineLo := p.extractLsb' 0 8, lineHi := p.extractLsb' 8 8 } }
  | .cmd | .r0 | .param => s
  | .pidKp | .pidKi | .pidKd | .pidOutcfg | .pidOutmin | .pidOutmax => s
  | .pidLasterr | .pidIacc | .pidLasttime | .pidLastout => s
  | .snsState | .snsChsel => s
  | .snsRaw _ | .snsMin _ | .snsMax _ | .snsRange _ | .snsNorm _ | .snsCoef _ | .snsHist _ => s

/-- The observation of a read (20_memory.md R67, 70_reset_and_hazards.md R224). -/
def State.observe (s : State) (e : Event) : State :=
  { s with env := { s.env with trace := s.env.trace ++ [e] } }

/-- The value the host read last, 0 before any read (log entry 4). -/
def lastRead (tr : List Event) : Word :=
  tr.foldl (fun v e => match e with | .read _ w => w | .sample _ _ => v) 0

/-- The host operations still pending. -/
def State.setPending (s : State) (ops : List HostOp) : State :=
  { s with env := { s.env with pending := ops } }

/-- The samples the channel reader presents next. -/
def State.setSamples (s : State) (v : List Byte) : State :=
  { s with env := { s.env with samples := v } }

/-- A program loaded from outside: its transactions, each command's bracket with it, stand after what is pending already
(70_reset_and_hazards.md R224, 30_encoding.md R88; log entry 1). -/
def State.load (s : State) (prog : List Line) : State :=
  s.setPending (s.env.pending ++ prog.flatMap Line.expand)

end Sys2Proof.Machine
end

