-- ==== Sys2Proof/Machine/Fx.lean ====
section
/-! DEFINITION. The meanings of the fixed-point commands (40_fixed_point.md R100 to R104). -/

namespace Sys2Proof.Machine

/-- `FX.MUL` (R101). -/
def execFxMul (s : State) : Host.Outcome State Fault Refusal :=
  let (r, s) := satW (mulraw (sx s.iface.a0) (sx s.iface.a1)) s
  .next ((s.setR0 (enc r)).complete .ok)

/-- `FX.DIV` (R102): a zero divisor gives 0, the flag and the code. -/
def execFxDiv (s : State) : Host.Outcome State Fault Refusal :=
  if sx s.iface.a1 = 0 then .next ((s.setR0 0).setDz.complete .divzero)
  else
    let (r, s) := satW (divraw (sx s.iface.a0) (sx s.iface.a1)) s
    .next ((s.setR0 (enc r)).complete .ok)

/-- `FX.SAT` (R103): an illegal width leaves `R0` as it is. -/
def execFxSat (s : State) : Host.Outcome State Fault Refusal :=
  let bits := zx s.iface.a1
  if bits < 2 ∨ Config.W < bits then .next s.configError
  else
    let m : Int := ((2 ^ (bits - 1) : Nat) : Int) - 1
    let (r, s) := sat (-m) m (sx s.iface.a0) s
    .next ((s.setR0 (enc r)).complete .ok)

/-- `FX.MAC` (R104): the product is not saturated on its own; the exact sum is, once. -/
def execFxMac (s : State) : Host.Outcome State Fault Refusal :=
  let (r, s) := satW (sx s.iface.acc + mulraw (sx s.iface.a0) (sx s.iface.a1)) s
  .next (((s.setAcc (enc r)).setR0 (enc r)).complete .ok)

end Sys2Proof.Machine
end

