-- ==== Sys2Proof/Machine/PidUnit.lean ====
section
/-! DEFINITION. The meanings of the PID controller commands (41_pid.md R120 to R136). -/

namespace Sys2Proof.Machine

/-- New gains in force, transients cleared, and the code that says whether one was out of range (R121 to R123). -/
def State.applyGains (s : State) (kp ki kd : Int) (oob : Bool) : State :=
  let s := s.setPid { s.pid with kp := enc kp, ki := enc ki, kd := enc kd, lastErr := 0, iacc := 0 }
  if oob then s.configError else s.complete .ok

/-- `PID.CFG` (R122). -/
def execPidCfg (s : State) : Host.Outcome State Fault Refusal :=
  let p := sx s.iface.a0
  let i := sx s.iface.a1
  let d := sx s.iface.a2
  .next (s.applyGains (gainClamp p) (gainClamp i) (gainClamp d) (gainOob p || gainOob i || gainOob d))

/-- `PID.CFGSTD` (R123): from the clamped `kp`; a zero `Ti` gives `KI = 0` with no flag. -/
def execPidCfgstd (s : State) : Host.Outcome State Fault Refusal :=
  let p := sx s.iface.a0
  let ti := sx s.iface.a1
  let td := sx s.iface.a2
  let kp := gainClamp p
  let kir := if ti = 0 then 0 else divraw kp ti
  let kdr := mulraw kp td
  .next (s.applyGains kp (gainClamp kir) (gainClamp kdr) (gainOob p || gainOob kir || gainOob kdr))

/-- `PID.SETOUT` (R124): an illegal width or sign code leaves the range as it is. -/
def execPidSetout (s : State) : Host.Outcome State Fault Refusal :=
  let bits := zx s.iface.a0
  let uns := zx s.iface.a1
  if outLegal bits uns then
    let u := uns == 1
    let b := outBounds bits u
    let s := s.setPid
      { s.pid with outBits := BitVec.ofNat 6 bits, outUns := u, outMin := enc b.1, outMax := enc b.2 }
    .next (s.complete .ok)
  else .next s.configError

/-- The proportional term (R128, R132). -/
def termP (e : Int) (s : State) : Int × State :=
  if sx s.pid.kp = 0 then (0, s)
  else sat (-Config.termMax) Config.termMax (mulraw (sx s.pid.kp) e) s

/-- The derivative term (R129, R132). -/
def termD (e dt : Int) (s : State) : Int × State :=
  if sx s.pid.kd = 0 then (0, s)
  else
    let (de, s) := satW (e - sx s.pid.lastErr) s
    let m := mulraw (sx s.pid.kd) de
    sat (-Config.termMax) Config.termMax (if 1 < dt then tdiv m dt else m) s

/-- The integral term: the accumulator takes the error first; a zero gain leaves it as it is (R130, R132). -/
def termI (e dt : Int) (s : State) : Int × State :=
  if sx s.pid.ki = 0 then (0, s)
  else
    let inc := if 1 < dt then e * dt else e
    let (acc, s) := sat (-Config.iMax) Config.iMax (sx s.pid.iacc + inc) s
    let s := s.setPid { s.pid with iacc := enc acc }
    sat (-Config.termMax) Config.termMax (mulraw (sx s.pid.ki) acc) s

/-- The output and the update of the transients (R131). -/
def State.finishStep (s : State) (e : Int) (now : BitVec 32) (sum : Int) : State :=
  let (out, s) := sat (sx s.pid.outMin) (sx s.pid.outMax) sum s
  let s := s.setPid { s.pid with lastErr := enc e, lastTime := now, lastOut := enc out }
  (s.setR0 (enc out)).complete .ok

/-- `PID.STEP` (R125): the elapsed time wraps (R126); a step in the same tick returns the last output (R127). -/
def execPidStep (s : State) : Host.Outcome State Fault Refusal :=
  let now := s.iface.a1
  let dt32 := (now - s.pid.lastTime).toNat
  if dt32 = 0 then .next ((s.setR0 s.pid.lastOut).complete .ok)
  else
    let (e, s) := satW (sx s.iface.a0) s
    let (dt, s) := sat 0 Config.dtMax dt32 s
    let (p, s) := termP e s
    let (d, s) := termD e dt s
    let (i, s) := termI e dt s
    .next (s.finishStep e now (p + i + d))

end Sys2Proof.Machine
end

