-- ==== Sys2Proof/Machine/SnsUnit.lean ====
section
/-! DEFINITION. The meanings of the sensor array commands (42_sensor.md R150 to R176). -/

namespace Sys2Proof.Machine

/-- Calibration discarded (R153). -/
def Sns.discard (x : Sns) : Sns :=
  { x with
    min := Vector.replicate Config.N 255, max := Vector.replicate Config.N 0, range := Vector.replicate Config.N 0,
    hist := Vector.replicate Config.H 0, valid := false, phase := .calibrating }

/-- `SNS.RESET` (R153). -/
def execSnsReset (s : State) : Host.Outcome State Fault Refusal :=
  .next ((s.setSns s.sns.discard).complete .ok)

/-- `SNS.READ` (R152). -/
def execSnsRead (s : State) : Host.Outcome State Fault Refusal :=
  .next (s.readAll.complete .ok)

/-- The lesser of two bytes (R154). -/
def byteMin (a b : Byte) : Byte := if a.toNat ≤ b.toNat then a else b

/-- The greater of two bytes (R154). -/
def byteMax (a b : Byte) : Byte := if a.toNat ≤ b.toNat then b else a

/-- The bounds widened by the samples in `RAW`, and the ranges between them (R154, R155). -/
def Sns.widen (x : Sns) : Sns :=
  { x with
    min := Vector.ofFn fun i => byteMin x.min[i] x.raw[i]
    max := Vector.ofFn fun i => byteMax x.max[i] x.raw[i]
    range := Vector.ofFn fun i => byteMax x.max[i] x.raw[i] - byteMin x.min[i] x.raw[i] }

/-- Every channel's range strictly exceeds the threshold (R156). -/
def Sns.isValid (x : Sns) : Bool :=
  (List.finRange Config.N).all fun i => decide (x.vthr.toNat < x.range[i].toNat)

/-- One sample counted in its bucket; a full bucket holds and records an event (R154, R157). -/
def State.countSample (s : State) (i : Fin Config.N) : State :=
  let b := bucket s.sns.raw[i]
  let (n, s) := sat 0 Config.histMax ((s.sns.hist[b].toNat : Int) + 1) s
  s.setSns { s.sns with hist := s.sns.hist.set b (BitVec.ofInt Config.histBits n) }

/-- Every channel's sample counted, in channel order (R157). -/
def State.countSamples (s : State) : State :=
  (List.finRange Config.N).foldl State.countSample s

/-- `SNS.CAL` (R154): the histogram is fed only on a valid pass. -/
def execSnsCal (s : State) : Host.Outcome State Fault Refusal :=
  let s := s.readAll
  let s := s.setSns s.sns.widen
  let v := s.sns.isValid
  let s := if v then s.countSamples else s
  let s := s.setSns { s.sns with valid := v, phase := .calibrating }
  .next ((s.setR0 (boolWord v)).complete .ok)

/-- The bucket counts as numbers. -/
def Sns.counts (x : Sns) : List Nat := (List.finRange Config.H).map fun b => x.hist[b].toNat

/-- `SNS.POL` (R161): polarity 1 when the median bucket is in the lower half. -/
def execSnsPol (s : State) : Host.Outcome State Fault Refusal :=
  let pol := decide (center s.sns.counts < Config.H / 2)
  let s := s.setSns { s.sns with polarity := pol }
  .next ((s.setR0 (boolWord pol)).complete .ok)

/-- One step outward: the pair at distance `k` from the centre takes `-x` and `+x`, and the next `x` is the saturated product
(R166). -/
def coeffPair (wf : Int) (xs : Int × State) (k : Fin Config.pairs) : Int × State :=
  let (x, s) := xs
  let lower : Fin Config.N := ⟨Config.pairs - 1 - k, by have := k.isLt; simp only [Config.pairs, Config.N] at *; omega⟩
  let upper : Fin Config.N := ⟨Config.pairs + k, by have := k.isLt; simp only [Config.pairs, Config.N] at *; omega⟩
  let coef := (s.sns.coef.set lower (enc (-x))).set upper (enc x)
  satW (mulraw x wf) (s.setSns { s.sns with coef := coef })

/-- `SNS.COEFF` (R166): the last product is discarded. -/
def execSnsCoeff (s : State) : Host.Outcome State Fault Refusal :=
  let (wf, s) := satW (sx s.iface.a0) s
  let (_, s) := (List.finRange Config.pairs).foldl (coeffPair wf) (Config.one, s)
  .next ((s.setPhase .calibrated).complete .ok)

/-- `NORM[i]` from `RAW[i]` and the calibrated interval; 128 for a channel of range 0 (R168 to R170). -/
def State.normChannel (s : State) (i : Fin Config.N) : State :=
  if s.sns.range[i] = 0 then s.setSns { s.sns with norm := s.sns.norm.set i 128 }
  else
    let (v, s) := sat 0 255 (normalize s.sns.min[i] s.sns.max[i] s.sns.range[i] s.sns.raw[i]) s
    s.setSns { s.sns with norm := s.sns.norm.set i (BitVec.ofInt 8 v) }

/-- Every channel normalized, in channel order (R168). -/
def State.normAll (s : State) : State :=
  (List.finRange Config.N).foldl State.normChannel s

/-- The weight of channel `i`: inverted where the polarity is 0 (R171), replaced by 255 or 0 in digital mode (R172). -/
def Sns.weight (x : Sns) (i : Fin Config.N) : Int :=
  let n : Int := x.norm[i].toNat
  let w := if x.polarity then n else 255 - n
  if x.digital then (if (x.dthr.toNat : Int) ≤ w then 255 else 0) else w

/-- The exact weighted sum (R173). -/
def Sns.positionSum (x : Sns) : Int :=
  ((List.finRange Config.N).map fun i => x.weight i * sx x.coef[i]).sum

/-- `SNS.POS` (R168). -/
def execSnsPos (s : State) : Host.Outcome State Fault Refusal :=
  let s := s.readAll.normAll
  let (r, s) := satW s.sns.positionSum s
  .next (((s.setR0 (enc r)).setPhase .reading).complete .ok)

/-- A byte inside a band, bounds included; the band is empty where `lo > hi` (10_state.md R38). -/
def inBand (lo hi v : Byte) : Bool := decide (lo.toNat ≤ v.toNat) && decide (v.toNat ≤ hi.toNat)

/-- `SNS.ONFLOOR` (R175): 1 when no channel's last sample is outside the band. -/
def execSnsOnfloor (s : State) : Host.Outcome State Fault Refusal :=
  let r := (List.finRange Config.N).all fun i => inBand s.sns.floorLo s.sns.floorHi s.sns.raw[i]
  .next ((s.setR0 (boolWord r)).complete .ok)

/-- `SNS.ONLINE` (R176): 1 when some channel's last sample is outside the band. -/
def execSnsOnline (s : State) : Host.Outcome State Fault Refusal :=
  let r := (List.finRange Config.N).any fun i => !inBand s.sns.lineLo s.sns.lineHi s.sns.raw[i]
  .next ((s.setR0 (boolWord r)).complete .ok)

end Sys2Proof.Machine
end

