-- ==== Sys2Proof/Machine/Dispatch.lean ====
section
/-! DEFINITION. One arm per command of 30_encoding.md R82. -/

namespace Sys2Proof.Machine

/-- The meaning of a command. -/
def exec (i : Instr) (s : State) : Host.Outcome State Fault Refusal :=
  match i with
  | .fxMul => Sys2Proof.Machine.execFxMul s
  | .fxDiv => Sys2Proof.Machine.execFxDiv s
  | .fxSat => Sys2Proof.Machine.execFxSat s
  | .fxMac => Sys2Proof.Machine.execFxMac s
  | .pidCfg => Sys2Proof.Machine.execPidCfg s
  | .pidCfgstd => Sys2Proof.Machine.execPidCfgstd s
  | .pidSetout => Sys2Proof.Machine.execPidSetout s
  | .pidStep => Sys2Proof.Machine.execPidStep s
  | .snsReset => Sys2Proof.Machine.execSnsReset s
  | .snsRead => Sys2Proof.Machine.execSnsRead s
  | .snsCal => Sys2Proof.Machine.execSnsCal s
  | .snsPol => Sys2Proof.Machine.execSnsPol s
  | .snsCoeff => Sys2Proof.Machine.execSnsCoeff s
  | .snsPos => Sys2Proof.Machine.execSnsPos s
  | .snsOnfloor => Sys2Proof.Machine.execSnsOnfloor s
  | .snsOnline => Sys2Proof.Machine.execSnsOnline s

end Sys2Proof.Machine
end

