-- ==== Sys2Proof/Machine/Transact.lean ====
section
/-! DEFINITION. What a host operation does to the block (20_memory.md R61 to R65). -/

namespace Sys2Proof.Machine

/-- A command word written to `CMD`: decoded and run to its end (20_memory.md R65). -/
def runCommand (p : Word) (s : State) : Host.Outcome State Fault Refusal :=
  match decode p with
  | .ok i => exec i s
  | .error _ => .next s.illegalCommand

/-- One host transaction: a read is observed and changes nothing of the block, a write to `CMD` runs a command, a write to an
unmapped location changes nothing (20_memory.md R61, R63, R65). -/
def transact (t : Txn) (s : State) : Host.Outcome State Fault Refusal :=
  match t with
  | .rd n => .next (s.observe (.read n (s.readReg n)))
  | .wr n p =>
    match Loc.ofNumber n with
    | some .cmd => runCommand p s
    | some l => .next (s.writeLoc l p)
    | none => .next s

/-- One host transaction during which the channel reader presents the bytes `v`: they are there for this transaction alone, and
what was supplied for others stands again after it (30_encoding.md R88, 70_reset_and_hazards.md R224; log entry 2). -/
def transactWith (t : Txn) (v : List Byte) (s : State) : Host.Outcome State Fault Refusal :=
  match transact t (s.setSamples v) with
  | .next u => .next (u.setSamples s.env.samples)
  | .fault r => .fault r
  | .refused r => .refused r

/-- One host operation (30_encoding.md R88, R89; 60_exceptions.md R205). -/
def hostOp (op : HostOp) (s : State) : Host.Outcome State Fault Refusal :=
  match op with
  | .txn t => transact t s
  | .sampled t v => transactWith t v s
  | .wrLast n => transact (.wr n (lastRead s.env.trace)) s
  | .powerCycle => .next s.powerOn

/-- The state with a command word as the host's next transaction: a write of it to `CMD` (30_encoding.md R88). -/
def State.pushCommand (s : State) (p : Word) : State :=
  s.setPending (.txn (.wr Loc.cmd.number p) :: s.env.pending)

end Sys2Proof.Machine
end

