-- ==== Sys2Proof/Machine/Step.lean ====
section
/-! DEFINITION. One step: the host's next operation takes effect (20_memory.md R72); with none pending the block is idle and
holds its state (60_exceptions.md R205). -/

namespace Sys2Proof.Machine

/-- The step. -/
def step (s : State) : Host.Outcome State Fault Refusal :=
  match s.env.pending with
  | [] => .next s
  | op :: rest => hostOp op (s.setPending rest)

/-- The command word as the host's next transaction, so that the next step decodes and runs it (log entry 1). -/
def State.withFetchWord (s : State) (nbits w : Nat) : State :=
  s.pushCommand (BitVec.ofNat 32 (w % 2 ^ nbits))

end Sys2Proof.Machine
end

