-- ==== Sys2Proof/Safety.lean ====
section
/-! DEFINITION. The invariant of the block (10_state.md R40) and the terms the statements are written in: a bound, the events
a saturation records, how a command completes, what it leaves alone, what it takes from the channel port. -/

namespace Sys2Proof.Safety

open Sys2Proof.Machine

/-- A `W`-bit register whose signed value has magnitude at most `b`. -/
def Within (b : Int) (p : Word) : Prop := -b ≤ sx p ∧ sx p ≤ b

/-- 10_state.md R40 (a): no calibration pass yet, or ordered bounds and the range between them. -/
def ChannelOk (x : Sns) (i : Fin Config.N) : Prop :=
  (x.min[i] = 255 ∧ x.max[i] = 0 ∧ x.range[i] = 0) ∨
  (x.min[i].toNat ≤ x.max[i].toNat ∧ x.range[i].toNat = x.max[i].toNat - x.min[i].toNat)

/-- 10_state.md R40 (d): a legal width, and the bounds R31 gives for it. -/
def OutputRangeOk (x : Pid) : Prop :=
  if x.outUns then
    1 ≤ x.outBits.toNat ∧ x.outBits.toNat ≤ 31 ∧ sx x.outMin = 0 ∧ sx x.outMax = 2 ^ x.outBits.toNat - 1
  else
    2 ≤ x.outBits.toNat ∧ x.outBits.toNat ≤ 32 ∧ sx x.outMax = 2 ^ (x.outBits.toNat - 1) - 1 ∧
      sx x.outMin = -sx x.outMax

/-- 10_state.md R40 (e): mirrored channels carry opposite coefficients. -/
def Antisymmetric (x : Sns) : Prop :=
  ∀ k : Fin 4, sx x.coef[(⟨3 - k.val, by omega⟩ : Fin 8)] = -sx x.coef[(⟨4 + k.val, by omega⟩ : Fin 8)]

/-- 10_state.md R40. -/
structure Inv (s : State) : Prop where
  channels      : ∀ i : Fin Config.N, ChannelOk s.sns i
  rangePositive : ∀ i : Fin Config.N, s.sns.range[i] ≠ 0 → s.sns.min[i].toNat < s.sns.max[i].toNat
  acc           : Within Config.fxMax s.iface.acc
  kp            : Within Config.gainMax s.pid.kp
  ki            : Within Config.gainMax s.pid.ki
  kd            : Within Config.gainMax s.pid.kd
  lastErr       : Within Config.fxMax s.pid.lastErr
  coef          : ∀ i : Fin Config.N, Within Config.fxMax s.sns.coef[i]
  iacc          : Within Config.iMax s.pid.iacc
  outRange      : OutputRangeOk s.pid
  outSigns      : sx s.pid.outMin ≤ 0 ∧ 0 ≤ sx s.pid.outMax
  antisymmetric : Antisymmetric s.sns

/-- `clamp(lo, hi, v)` in the words of 00_scope.md R12. -/
def limit (lo hi v : Int) : Int := if v < lo then lo else if v > hi then hi else v

/-- A value limited to the symmetric 32-bit range (00_scope.md R6, R12). -/
def limit32 (v : Int) : Int := limit (-2147483647) 2147483647 v

/-- The number of saturation events of one `sat` (00_scope.md R12): 1 when the limit changes the value. -/
def excess (lo hi v : Int) : Nat := if limit lo hi v = v then 0 else 1

/-- The number of saturation events of one `satW`. -/
def excess32 (v : Int) : Nat := excess (-2147483647) 2147483647 v

/-- From `s` to `t`, `k` saturation events were recorded: the counter holds at `2^32 - 1`, the flag is sticky
(00_scope.md R12, 10_state.md R27). -/
def Recorded (s t : State) (k : Nat) : Prop :=
  t.iface.satcnt.toNat = min (s.iface.satcnt.toNat + k) (2 ^ 32 - 1) ∧
  t.iface.status.sat = (s.iface.status.sat || decide (0 < k))

/-- The command completed with code `c` and set at most the sticky flags given (60_exceptions.md R190, R195). -/
def Completed (s t : State) (c : Code) (dz ce ill : Bool) : Prop :=
  t.iface.status.code = c ∧ t.iface.status.dz = (s.iface.status.dz || dz) ∧
  t.iface.status.ce = (s.iface.status.ce || ce) ∧ t.iface.status.ill = (s.iface.status.ill || ill)

/-- The command completed with code `OK` and set no error flag. -/
def CompletedOk (s t : State) : Prop := Completed s t .ok false false false

/-- Of the interface registers at most the saturation counter and its flag changed. -/
def OnlyRecords (s t : State) : Prop :=
  t.iface = { s.iface with satcnt := t.iface.satcnt, status := { s.iface.status with sat := t.iface.status.sat } }

/-- The operand registers keep their values (10_state.md R22). -/
def OperandsKept (s t : State) : Prop :=
  t.iface.a0 = s.iface.a0 ∧ t.iface.a1 = s.iface.a1 ∧ t.iface.a2 = s.iface.a2

/-- The frame of the fixed-point commands: no other unit, no port, and of the interface registers at most the result, the
accumulator, the saturation counter and the status (10_state.md R41). -/
def FxFrame (s t : State) : Prop :=
  t.pid = s.pid ∧ t.sns = s.sns ∧ t.env = s.env ∧
  t.iface =
    { s.iface with
      r0 := t.iface.r0, acc := t.iface.acc, satcnt := t.iface.satcnt, status := t.iface.status }

/-- Of the interface registers at most the result, the saturation counter and the status changed. -/
def ResultFrame (s t : State) : Prop :=
  t.iface = { s.iface with r0 := t.iface.r0, satcnt := t.iface.satcnt, status := t.iface.status }

/-- Of the interface registers at most the saturation counter and the status changed. -/
def NoResultFrame (s t : State) : Prop :=
  t.iface = { s.iface with satcnt := t.iface.satcnt, status := t.iface.status }

/-- `gain_oob(v)` (41_pid.md R121): outside the range of a stored gain. -/
def outside (v : Int) : Bool := decide (v < -2147483647 ∨ v > 2147483647)

/-- The host-writable sensor registers keep their values (10_state.md R37, R38). -/
def ConfigKept (x y : Sns) : Prop :=
  y.digital = x.digital ∧ y.vthr = x.vthr ∧ y.dthr = x.dthr ∧ y.floorLo = x.floorLo ∧ y.floorHi = x.floorHi ∧
  y.lineLo = x.lineLo ∧ y.lineHi = x.lineHi

/-- The ports after one read-all from `s`: eight bytes used up, and observed at the channels in order
(20_memory.md R66, R67). -/
def afterSamples (s : State) : Env :=
  { s.env with
    samples := s.env.samples.drop 8, sampleNo := s.env.sampleNo + 8,
    trace := s.env.trace ++ List.ofFn fun i : Fin 8 => Event.sample i (s.incoming i) }

/-- How many of the eight incoming samples fall in bucket `b`, which holds `16b` to `16b + 15` (42_sensor.md R160). -/
def bucketCount (s : State) (b : Nat) : Nat :=
  (Finset.univ.filter fun i : Fin 8 => (s.incoming i).toNat / 16 = b).card

/-- The sum of the buckets `0` to `c` (42_sensor.md R161). -/
def cumulative (x : Sns) (c : Nat) : Nat :=
  ∑ b : Fin 16, if b.val ≤ c then x.hist[b].toNat else 0

/-- The coefficient at distance `k` from the centre, for weight factor `wf` (42_sensor.md R166). -/
def coefficient (wf : Int) (k : Nat) : Int :=
  match k with
  | 0 => 256
  | k + 1 => limit32 (coefficient wf k * wf / 256)

/-- The range of a channel after a pass that reads `v` (42_sensor.md R155). -/
def widenedRange (s : State) (i : Fin 8) : Nat :=
  max s.sns.max[i].toNat (s.incoming i).toNat - min s.sns.min[i].toNat (s.incoming i).toNat

/-- The array is valid after the pass: every channel's range exceeds `VTHR` (42_sensor.md R156). -/
def validAfter (s : State) : Prop := ∀ i : Fin 8, s.sns.vthr.toNat < widenedRange s i

/-- The number `SNS.POS` gives a channel before the byte saturation (42_sensor.md R168, R169). -/
def scaled (s : State) (i : Fin 8) : Int :=
  Int.tdiv ((limit s.sns.min[i].toNat s.sns.max[i].toNat (s.incoming i).toNat - s.sns.min[i].toNat) * 255)
    s.sns.range[i].toNat

/-- `NORM[i]` after `SNS.POS` (42_sensor.md R168 to R170). -/
def normalized (s : State) (i : Fin 8) : Int :=
  if s.sns.range[i].toNat = 0 then 128 else limit 0 255 (scaled s i)

/-- The weight of a channel with normalized value `n` (42_sensor.md R171, R172). -/
def weightOf (x : Sns) (n : Int) : Int :=
  let w := if x.polarity then n else 255 - n
  if x.digital then (if w ≥ x.dthr.toNat then 255 else 0) else w

/-- The exact position sum for the normalized values `n` (42_sensor.md R173). -/
def weightedSum (x : Sns) (n : Fin 8 → Int) : Int :=
  ∑ i : Fin 8, weightOf x (n i) * sx x.coef[i]

/-- The numbers of the mapped locations (20_memory.md R62). -/
def mapped (n : Nat) : Prop :=
  n ≤ 0x08 ∨ (0x10 ≤ n ∧ n ≤ 0x19) ∨ (0x20 ≤ n ∧ n ≤ 0x26) ∨ (0x40 ≤ n ∧ n ≤ 0x9F ∧ n % 16 < 8) ∨
  (0xA0 ≤ n ∧ n ≤ 0xAF)

/-- The numbers of the locations a host write can change, `CMD` apart (20_memory.md R62). -/
def writable (n : Nat) : Prop := (0x01 ≤ n ∧ n ≤ 0x04) ∨ n = 0x06 ∨ n = 0x07 ∨ (0x20 ≤ n ∧ n ≤ 0x24)

/-- The step that takes the host transaction `x`, put before what is pending. -/
def afterTxn (x : Txn) (s : State) : Host.Outcome State Fault Refusal :=
  step (s.setPending (.txn x :: s.env.pending))

/-- The state with the operands of `PID.STEP` in place. -/
def withStepOperands (s : State) (e now : Word) : State :=
  { s with iface := { s.iface with a0 := e, a1 := now } }

/-- The state with the bytes a calibration pass will read in front of the supplied samples. -/
def withSamples (s : State) (v : Vector Byte 8) : State :=
  { s with env := { s.env with samples := v.toList ++ s.env.samples } }

/-- The state after `PID.STEP` with the given operands. -/
def stepWith (s : State) (e now : Word) : State :=
  match exec .pidStep (withStepOperands s e now) with
  | .next t => t
  | .fault _ => s
  | .refused _ => s

/-- `n` control ticks with the same error, each `dt` milliseconds after the one before it. -/
def ticks (e : Word) (dt : Nat) (n : Nat) (s : State) : State :=
  match n with
  | 0 => s
  | n + 1 => let t := ticks e dt n s; stepWith t e (t.pid.lastTime + BitVec.ofNat 32 dt)

/-- The state after one calibration pass that reads `v`. -/
def calWith (s : State) (v : Vector Byte 8) : State :=
  match exec .snsCal (withSamples s v) with
  | .next t => t
  | .fault _ => s
  | .refused _ => s

end Sys2Proof.Safety
end

