-- ==== Sys2Proof/Certificates/Slice0/Obligations.lean ====
section
/-! DEFINITION. The statements for the provers. Each docstring names the rule of spec/ it formalises. -/

open Sys2Proof Sys2Proof.Machine Sys2Proof.Safety

/-! ### Reset, steps, transactions -/

/-- 10_state.md section 7: every piece of block state at its reset value; the ports' values are the model's own (log entries 1
to 3) and are not stated. -/
def Obligations.ResetValuesAreTheTabledOnes : Prop :=
  let s := State.reset
  (s.iface.a0 = 0 ∧ s.iface.a1 = 0 ∧ s.iface.a2 = 0 ∧ s.iface.r0 = 0 ∧ s.iface.acc = 0 ∧ s.iface.satcnt = 0 ∧
    s.readReg 0x01 = 0) ∧
  (s.pid.kp = 0 ∧ s.pid.ki = 0 ∧ s.pid.kd = 0 ∧ s.pid.lastErr = 0 ∧ s.pid.iacc = 0 ∧ s.pid.lastTime = 0 ∧
    s.pid.lastOut = 0) ∧
  (s.pid.outBits = 16 ∧ s.pid.outUns = false ∧ sx s.pid.outMin = -32767 ∧ sx s.pid.outMax = 32767) ∧
  (∀ i : Fin 8, s.sns.raw[i] = 0 ∧ s.sns.norm[i] = 0 ∧ s.sns.coef[i] = 0 ∧ s.sns.min[i] = 255 ∧ s.sns.max[i] = 0 ∧
    s.sns.range[i] = 0) ∧
  (∀ b : Fin 16, s.sns.hist[b] = 0) ∧
  (s.sns.polarity = true ∧ s.sns.valid = false ∧ s.sns.phase.bits = 0 ∧ s.sns.digital = false ∧ s.sns.vthr = 64 ∧
    s.sns.dthr = 128) ∧
  (s.sns.floorLo = 0 ∧ s.sns.floorHi = 255 ∧ s.sns.lineLo = 0 ∧ s.sns.lineHi = 255 ∧ s.sns.chsel = 0)

/-- 70_reset_and_hazards.md R223, 60_exceptions.md R194, R200: every command and every step completes, in every state. -/
def Obligations.EveryCommandAndStepCompletes : Prop :=
  (∀ (i : Instr) (s : State), ∃ t, exec i s = .next t) ∧ ∀ s : State, ∃ t, step s = .next t

/-- 20_memory.md R65, 30_encoding.md R87: a command word the host writes to `CMD` (number 0) is decoded and runs as that
command on the state without the write; the host's own fetch point does the same; an idle block holds its state
(60_exceptions.md R205). -/
def Obligations.StepRunsTheDecodedCommand : Prop :=
  (∀ (s : State) (p : Word) (i : Instr) (rest : List HostOp),
    s.env.pending = .txn (.wr 0x00 p) :: rest → decode p = .ok i →
      step s = exec i { s with env := { s.env with pending := rest } }) ∧
  (∀ (s : State) (i : Instr), step (s.withFetchWord 32 (encode i).toNat) = exec i s) ∧
  ∀ s : State, s.env.pending = [] → step s = .next s

/-- 30_encoding.md R83, R84: a word that is none of the sixteen sets the code and the flag and changes nothing else. -/
def Obligations.IllegalWordSetsOnlyCodeAndFlag : Prop :=
  ∀ (s : State) (p : Word), (∀ i : Instr, encode i ≠ p) →
    afterTxn (.wr 0x00 p) s =
      .next { s with iface := { s.iface with status := { s.iface.status with code := .illegal, ill := true } } }

/-- 20_memory.md R61, R70: a read returns the location's value to the host and changes no state of the block. -/
def Obligations.ReadReturnsTheLocationAndKeepsTheBlock : Prop :=
  ∀ (s : State) (n : Byte),
    afterTxn (.rd n) s = .next { s with env := { s.env with trace := s.env.trace ++ [.read n (s.readReg n)] } }

/-- 20_memory.md R62 (the column "content"): what each location shows. -/
def Obligations.RegisterMapShowsTheState : Prop :=
  ∀ s : State,
    ((s.readReg 0x01).toNat =
      s.iface.status.code.bits.toNat + 256 * s.iface.status.dz.toNat + 512 * s.iface.status.ce.toNat +
        1024 * s.iface.status.sat.toNat + 2048 * s.iface.status.ill.toNat) ∧
    (s.readReg 0x02 = s.iface.a0 ∧ s.readReg 0x03 = s.iface.a1 ∧ s.readReg 0x04 = s.iface.a2 ∧
      s.readReg 0x05 = s.iface.r0 ∧ s.readReg 0x06 = s.iface.acc ∧ s.readReg 0x07 = s.iface.satcnt ∧
      s.readReg 0x08 = 0x20100808) ∧
    (s.readReg 0x10 = s.pid.kp ∧ s.readReg 0x11 = s.pid.ki ∧ s.readReg 0x12 = s.pid.kd ∧
      (s.readReg 0x13).toNat = s.pid.outBits.toNat + 256 * s.pid.outUns.toNat ∧ s.readReg 0x14 = s.pid.outMin ∧
      s.readReg 0x15 = s.pid.outMax ∧ s.readReg 0x16 = s.pid.lastErr ∧ s.readReg 0x17 = s.pid.iacc ∧
      s.readReg 0x18 = s.pid.lastTime ∧ s.readReg 0x19 = s.pid.lastOut) ∧
    ((s.readReg 0x20).toNat = s.sns.digital.toNat ∧ (s.readReg 0x21).toNat = s.sns.vthr.toNat ∧
      (s.readReg 0x22).toNat = s.sns.dthr.toNat ∧
      (s.readReg 0x23).toNat = s.sns.floorLo.toNat + 256 * s.sns.floorHi.toNat ∧
      (s.readReg 0x24).toNat = s.sns.lineLo.toNat + 256 * s.sns.lineHi.toNat ∧
      (s.readReg 0x25).toNat = s.sns.phase.bits.toNat + 4 * s.sns.polarity.toNat + 8 * s.sns.valid.toNat ∧
      (s.readReg 0x26).toNat = s.sns.chsel.toNat) ∧
    (∀ i : Fin 8,
      (s.readReg (0x40 + BitVec.ofNat 8 i)).toNat = s.sns.raw[i].toNat ∧
      (s.readReg (0x50 + BitVec.ofNat 8 i)).toNat = s.sns.min[i].toNat ∧
      (s.readReg (0x60 + BitVec.ofNat 8 i)).toNat = s.sns.max[i].toNat ∧
      (s.readReg (0x70 + BitVec.ofNat 8 i)).toNat = s.sns.range[i].toNat ∧
      (s.readReg (0x80 + BitVec.ofNat 8 i)).toNat = s.sns.norm[i].toNat ∧
      s.readReg (0x90 + BitVec.ofNat 8 i) = s.sns.coef[i]) ∧
    ∀ b : Fin 16, (s.readReg (0xA0 + BitVec.ofNat 8 b)).toNat = s.sns.hist[b].toNat

/-- 20_memory.md R64, 10_state.md R24, R26: what a host write to each writable location stores, and nothing else changes. -/
def Obligations.HostWriteStoresTheFields : Prop :=
  ∀ (s : State) (p : Word),
    afterTxn (.wr 0x02 p) s = .next { s with iface := { s.iface with a0 := p } } ∧
    afterTxn (.wr 0x03 p) s = .next { s with iface := { s.iface with a1 := p } } ∧
    afterTxn (.wr 0x04 p) s = .next { s with iface := { s.iface with a2 := p } } ∧
    afterTxn (.wr 0x07 p) s = .next { s with iface := { s.iface with satcnt := p } } ∧
    afterTxn (.wr 0x01 p) s =
      .next
        { s with
          iface := { s.iface with
            status := { s.iface.status with
              dz := s.iface.status.dz && !p.getLsbD 8, ce := s.iface.status.ce && !p.getLsbD 9,
              sat := s.iface.status.sat && !p.getLsbD 10, ill := s.iface.status.ill && !p.getLsbD 11 } } } ∧
    (∃ t, afterTxn (.wr 0x06 p) s = .next t ∧ sx t.iface.acc = limit32 (sx p) ∧
      Recorded s t (if p = 0x80000000 then 1 else 0) ∧ t.pid = s.pid ∧ t.sns = s.sns ∧ t.env = s.env ∧
      t.iface =
        { s.iface with
          acc := t.iface.acc, satcnt := t.iface.satcnt,
          status := { s.iface.status with sat := t.iface.status.sat } }) ∧
    afterTxn (.wr 0x20 p) s = .next { s with sns := { s.sns with digital := p.getLsbD 0 } } ∧
    afterTxn (.wr 0x21 p) s = .next { s with sns := { s.sns with vthr := BitVec.ofNat 8 p.toNat } } ∧
    afterTxn (.wr 0x22 p) s = .next { s with sns := { s.sns with dthr := BitVec.ofNat 8 p.toNat } } ∧
    afterTxn (.wr 0x23 p) s =
      .next
        { s with
          sns := { s.sns with floorLo := BitVec.ofNat 8 p.toNat, floorHi := BitVec.ofNat 8 (p.toNat / 256) } } ∧
    afterTxn (.wr 0x24 p) s =
      .next
        { s with
          sns := { s.sns with lineLo := BitVec.ofNat 8 p.toNat, lineHi := BitVec.ofNat 8 (p.toNat / 256) } }

/-- 20_memory.md R63: a write to a read-only or unmapped location changes nothing; a read of `CMD` or of an unmapped location
returns 0; neither touches a flag or the code. -/
def Obligations.ReadOnlyAndUnmappedLocationsIgnoreTheHost : Prop :=
  (∀ (s : State) (n : Byte) (p : Word), n ≠ 0x00 → ¬writable n.toNat → afterTxn (.wr n p) s = .next s) ∧
  ∀ (s : State) (n : Byte), n = 0x00 ∨ ¬mapped n.toNat →
    s.readReg n = 0 ∧ ∃ t, afterTxn (.rd n) s = .next t ∧ t.iface = s.iface

/-- 10_state.md R26: a write to `STATUS` clears exactly the sticky flags whose bits are 1 and keeps the code, and no other host
transaction, a command among them, clears a sticky flag. -/
def Obligations.OnlyAStatusWriteClearsStickyFlags : Prop :=
  (∀ (s : State) (p : Word), ∃ t, afterTxn (.wr 0x01 p) s = .next t ∧ t.iface.status.code = s.iface.status.code ∧
    t.iface.status.dz = (s.iface.status.dz && !p.getLsbD 8) ∧ t.iface.status.ce = (s.iface.status.ce && !p.getLsbD 9) ∧
    t.iface.status.sat = (s.iface.status.sat && !p.getLsbD 10) ∧
    t.iface.status.ill = (s.iface.status.ill && !p.getLsbD 11)) ∧
  ∀ (x : Txn) (s t : State), afterTxn x s = .next t → (∀ p, x ≠ .wr 0x01 p) →
    (s.iface.status.dz = true → t.iface.status.dz = true) ∧ (s.iface.status.ce = true → t.iface.status.ce = true) ∧
    (s.iface.status.sat = true → t.iface.status.sat = true) ∧ (s.iface.status.ill = true → t.iface.status.ill = true)

/-- 70_reset_and_hazards.md R210, 60_exceptions.md R205: after power returns the block is in its reset state. What stands at the
ports stays: that is the model's choice (log entry 16). -/
def Obligations.PowerCycleResetsTheBlock : Prop :=
  ∀ (s : State) (rest : List HostOp), s.env.pending = .powerCycle :: rest →
    step s = .next { State.reset with env := { s.env with pending := rest } }

/-- 30_encoding.md R89 (`FEED`): a read of `R0` and a write of the value read to `A0`. -/
def Obligations.FeedPassesTheResultToTheFirstOperand : Prop :=
  ∀ (s : State) (rest : List HostOp), s.env.pending = Pseudo.feed.expand ++ rest →
    ∃ t, step s = .next t ∧
      step t =
        .next
          { s with
            iface := { s.iface with a0 := s.iface.r0 },
            env := { s.env with pending := rest, trace := s.env.trace ++ [.read 0x05 s.iface.r0] } }

/-- 30_encoding.md R88, 70_reset_and_hazards.md R224: a sampling command's line is one operation, and its bracket is what that command's
calls of `SampleRead` take: in channel order, and no other command's. A command word written as a plain `WR` line before it takes
none of the bracket. That the samples stand in State is the model's choice (log entry 2). -/
def Obligations.BracketSuppliesItsCommandAlone : Prop :=
  (∀ (s : State) (i : Instr) (v : Vector Byte 8) (rest : List HostOp),
    i ∈ [Instr.snsRead, .snsCal, .snsPos] → s.env.pending = Line.expand (.cmd i v.toList) ++ rest →
      ∃ t, exec i { s with env := { s.env with pending := rest, samples := v.toList } } = .next t ∧
        step s = .next { t with env := { t.env with samples := s.env.samples } } ∧ t.sns.raw = v ∧
        t.env =
          { s.env with
            pending := rest, samples := [], sampleNo := s.env.sampleNo + 8,
            trace := s.env.trace ++ List.ofFn fun k : Fin 8 => Event.sample k v[k] }) ∧
  ∀ (s : State) (i j : Instr) (v : Vector Byte 8) (rest : List HostOp),
    i ∈ [Instr.snsRead, .snsCal, .snsPos] → j ∈ [Instr.snsRead, .snsCal, .snsPos] →
    s.env.pending =
      Line.expand (.wr (.name .cmd) (.hex (encode i).toNat)) ++ (Line.expand (.cmd j v.toList) ++ rest) →
      ∃ t u, step s = .next t ∧ step t = .next u ∧ (∀ k : Fin 8, t.sns.raw[k] = s.incoming k) ∧ u.sns.raw = v

/-! ### Whole-machine rules over all commands -/

/-- 20_memory.md R75: no command writes the operand registers, the sensor configuration and band registers, or the pending
host operations, and none clears a sticky flag. -/
def Obligations.CommandsKeepOperandsAndConfiguration : Prop :=
  ∀ (i : Instr) (s t : State), exec i s = .next t →
    OperandsKept s t ∧ ConfigKept s.sns t.sns ∧ t.env.pending = s.env.pending ∧
    (s.iface.status.dz = true → t.iface.status.dz = true) ∧ (s.iface.status.ce = true → t.iface.status.ce = true) ∧
    (s.iface.status.sat = true → t.iface.status.sat = true) ∧ t.iface.status.ill = s.iface.status.ill

/-- 10_state.md R41: a PID command writes no sensor state, a sensor command writes no PID state, an FX command neither; only
`FX.MAC` writes the accumulator. -/
def Obligations.UnitsWriteOnlyTheirOwnState : Prop :=
  ∀ (i : Instr) (s t : State), exec i s = .next t →
    (i ∈ [Instr.fxMul, .fxDiv, .fxSat, .fxMac] → t.pid = s.pid ∧ t.sns = s.sns ∧ t.env = s.env) ∧
    (i ∈ [Instr.pidCfg, .pidCfgstd, .pidSetout, .pidStep] → t.sns = s.sns ∧ t.env = s.env) ∧
    (i ∈ [Instr.snsReset, .snsRead, .snsCal, .snsPol, .snsCoeff, .snsPos, .snsOnfloor, .snsOnline] → t.pid = s.pid) ∧
    (i ≠ .fxMac → t.iface.acc = s.iface.acc)

/-- 00_scope.md R12, 10_state.md R27: no command lowers the saturation counter, one that raises it sets the sticky flag, and the
flag is raised only with an event, which the counter shows unless it is full. -/
def Obligations.SaturationCounterOnlyRises : Prop :=
  ∀ (i : Instr) (s t : State), exec i s = .next t →
    s.iface.satcnt.toNat ≤ t.iface.satcnt.toNat ∧
    (s.iface.satcnt ≠ t.iface.satcnt → t.iface.status.sat = true) ∧
    (t.iface.status.sat ≠ s.iface.status.sat →
      s.iface.satcnt ≠ t.iface.satcnt ∨ s.iface.satcnt.toNat = 2 ^ 32 - 1)

/-- 60_exceptions.md R190, R196: the codes' numbers; which command ends with which code; a command that does not end with `OK` records no
saturation event. -/
def Obligations.CompletionCodesByCommand : Prop :=
  ∀ (i : Instr) (s t : State), exec i s = .next t →
    (Code.ok.bits = 0 ∧ Code.divzero.bits = 1 ∧ Code.cfgerr.bits = 2 ∧ Code.illegal.bits = 3) ∧
    (t.iface.status.code = .divzero ↔ i = .fxDiv ∧ s.iface.a1 = 0) ∧
    (t.iface.status.code = .cfgerr → i ∈ [Instr.fxSat, .pidCfg, .pidCfgstd, .pidSetout]) ∧
    t.iface.status.code ≠ .illegal ∧
    (t.iface.status.code ≠ .ok →
      t.iface.satcnt = s.iface.satcnt ∧ t.iface.status.sat = s.iface.status.sat)

/-- 10_state.md R36: the lifecycle mark records the most recent lifecycle command. -/
def Obligations.PhaseRecordsTheLifecycleCommand : Prop :=
  ∀ (i : Instr) (s t : State), exec i s = .next t →
    t.sns.phase.bits =
      if i = .snsReset ∨ i = .snsCal then 1
      else if i = .snsCoeff then 2
      else if i = .snsPos then 3
      else s.sns.phase.bits

/-- 20_memory.md R66: samples are taken only inside `SNS.READ`, `SNS.CAL` and `SNS.POS`, eight each, in channel order, and stored
in `RAW`. -/
def Obligations.OnlyThreeCommandsTakeSamples : Prop :=
  ∀ (i : Instr) (s t : State), exec i s = .next t →
    if i ∈ [Instr.snsRead, .snsCal, .snsPos] then
      t.env = afterSamples s ∧ t.sns.chsel = 7 ∧ ∀ j : Fin 8, t.sns.raw[j] = s.incoming j
    else t.env = s.env ∧ t.sns.chsel = s.sns.chsel ∧ t.sns.raw = s.sns.raw

/-! ### The fixed-point unit -/

/-- 40_fixed_point.md R101. -/
def Obligations.FxMulFloorsAndSaturates : Prop :=
  decode 0x00000010 = .ok .fxMul ∧
  ∀ s : State, ∃ t, exec .fxMul s = .next t ∧
    sx t.iface.r0 = limit32 (sx s.iface.a0 * sx s.iface.a1 / 256) ∧
    Recorded s t (excess32 (sx s.iface.a0 * sx s.iface.a1 / 256)) ∧ CompletedOk s t ∧ FxFrame s t ∧
    t.iface.acc = s.iface.acc

/-- 40_fixed_point.md R102. -/
def Obligations.FxDivTruncatesOrReportsZero : Prop :=
  decode 0x00000011 = .ok .fxDiv ∧
  ∀ s : State, ∃ t, exec .fxDiv s = .next t ∧ FxFrame s t ∧ t.iface.acc = s.iface.acc ∧
    if sx s.iface.a1 = 0 then
      t.iface.r0 = 0 ∧ Recorded s t 0 ∧ Completed s t .divzero true false false
    else
      sx t.iface.r0 = limit32 (Int.tdiv (sx s.iface.a0 * 256) (sx s.iface.a1)) ∧
      Recorded s t (excess32 (Int.tdiv (sx s.iface.a0 * 256) (sx s.iface.a1))) ∧ CompletedOk s t

/-- 40_fixed_point.md R103. -/
def Obligations.FxSatClampsToTheWidth : Prop :=
  decode 0x00000012 = .ok .fxSat ∧
  ∀ s : State, ∃ t, exec .fxSat s = .next t ∧ FxFrame s t ∧ t.iface.acc = s.iface.acc ∧
    if s.iface.a1.toNat < 2 ∨ s.iface.a1.toNat > 32 then
      t.iface.r0 = s.iface.r0 ∧ Recorded s t 0 ∧ Completed s t .cfgerr false true false
    else
      sx t.iface.r0 =
        max (-(2 ^ (s.iface.a1.toNat - 1) - 1)) (min (2 ^ (s.iface.a1.toNat - 1) - 1) (sx s.iface.a0)) ∧
      Recorded s t (if |sx s.iface.a0| > 2 ^ (s.iface.a1.toNat - 1) - 1 then 1 else 0) ∧ CompletedOk s t

/-- 40_fixed_point.md R104. -/
def Obligations.FxMacAccumulatesAndSaturatesOnce : Prop :=
  decode 0x00000013 = .ok .fxMac ∧
  ∀ s : State, ∃ t, exec .fxMac s = .next t ∧
    sx t.iface.acc = limit32 (sx s.iface.acc + sx s.iface.a0 * sx s.iface.a1 / 256) ∧ t.iface.r0 = t.iface.acc ∧
    Recorded s t (excess32 (sx s.iface.acc + sx s.iface.a0 * sx s.iface.a1 / 256)) ∧ CompletedOk s t ∧ FxFrame s t

/-- 40_fixed_point.md R110: an FX command's effect (what it stores, the flags it sets, whether it stores a result) is a function of
`A0`, `A1`, `ACC` and `SATCNT` alone. -/
def Obligations.FxCommandsDependOnTheirOperandsAlone : Prop :=
  ∀ (i : Instr) (s s' t t' : State), i ∈ [Instr.fxMul, .fxDiv, .fxSat, .fxMac] →
    s.iface.a0 = s'.iface.a0 → s.iface.a1 = s'.iface.a1 → s.iface.acc = s'.iface.acc →
    s.iface.satcnt = s'.iface.satcnt → exec i s = .next t → exec i s' = .next t' →
      t.iface.acc = t'.iface.acc ∧ t.iface.satcnt = t'.iface.satcnt ∧
      t.iface.status.code = t'.iface.status.code ∧
      (∃ dz ce sat : Bool,
        (t.iface.status.dz = (s.iface.status.dz || dz) ∧ t'.iface.status.dz = (s'.iface.status.dz || dz)) ∧
        (t.iface.status.ce = (s.iface.status.ce || ce) ∧ t'.iface.status.ce = (s'.iface.status.ce || ce)) ∧
        (t.iface.status.sat = (s.iface.status.sat || sat) ∧ t'.iface.status.sat = (s'.iface.status.sat || sat))) ∧
      (t.iface.r0 = t'.iface.r0 ∨ (t.iface.r0 = s.iface.r0 ∧ t'.iface.r0 = s'.iface.r0))

/-- 40_fixed_point.md R105 (the consequences it lists). -/
def Obligations.MultiplyRoundsTowardNegativeInfinity : Prop :=
  ∀ a b : Int,
    mulraw a b = mulraw b a ∧ mulraw a b * 256 ≤ a * b ∧ a * b < (mulraw a b + 1) * 256 ∧ mulraw 256 a = a ∧
    mulraw (-256) a = -a ∧
    mulraw (-a) b = if 256 ∣ a * b then -mulraw a b else -mulraw a b - 1

/-- 40_fixed_point.md R106 (the consequences it lists). -/
def Obligations.DivideRoundsTowardZero : Prop :=
  ∀ a b : Int, b ≠ 0 →
    divraw (-a) b = -divraw a b ∧ divraw a (-b) = -divraw a b ∧ |divraw a b| * |b| ≤ |256 * a| ∧
    |256 * a| < (|divraw a b| + 1) * |b| ∧ (0 ≤ a → 0 < b → divraw a b = 256 * a / b) ∧ divraw a 256 = a

/-! ### The PID controller unit -/

/-- 41_pid.md R121, R122. -/
def Obligations.PidCfgClampsGainsAndClearsTransients : Prop :=
  decode 0x00000020 = .ok .pidCfg ∧
  ∀ s : State, ∃ t, exec .pidCfg s = .next t ∧
    sx t.pid.kp = limit32 (sx s.iface.a0) ∧ sx t.pid.ki = limit32 (sx s.iface.a1) ∧
    sx t.pid.kd = limit32 (sx s.iface.a2) ∧
    t.pid = { s.pid with kp := t.pid.kp, ki := t.pid.ki, kd := t.pid.kd, lastErr := 0, iacc := 0 } ∧
    (let bad := outside (sx s.iface.a0) || outside (sx s.iface.a1) || outside (sx s.iface.a2)
     Completed s t (if bad then .cfgerr else .ok) false bad false) ∧
    Recorded s t 0 ∧ NoResultFrame s t ∧ t.sns = s.sns ∧ t.env = s.env

/-- 41_pid.md R121, R123. -/
def Obligations.PidCfgstdConvertsStandardForm : Prop :=
  decode 0x00000021 = .ok .pidCfgstd ∧
  ∀ s : State, ∃ t, exec .pidCfgstd s = .next t ∧
    (let kp := limit32 (sx s.iface.a0)
     let kir := if sx s.iface.a1 = 0 then 0 else Int.tdiv (kp * 256) (sx s.iface.a1)
     let kdr := kp * sx s.iface.a2 / 256
     let bad := outside (sx s.iface.a0) || outside kir || outside kdr
     sx t.pid.kp = kp ∧ sx t.pid.ki = limit32 kir ∧ sx t.pid.kd = limit32 kdr ∧
     Completed s t (if bad then .cfgerr else .ok) false bad false) ∧
    t.pid = { s.pid with kp := t.pid.kp, ki := t.pid.ki, kd := t.pid.kd, lastErr := 0, iacc := 0 } ∧
    Recorded s t 0 ∧ NoResultFrame s t ∧ t.sns = s.sns ∧ t.env = s.env

/-- 41_pid.md R124. -/
def Obligations.PidSetoutDeclaresTheRangeOrKeepsIt : Prop :=
  decode 0x00000022 = .ok .pidSetout ∧
  ∀ s : State, ∃ t, exec .pidSetout s = .next t ∧ Recorded s t 0 ∧ NoResultFrame s t ∧ t.sns = s.sns ∧ t.env = s.env ∧
    let bits := s.iface.a0.toNat
    let uns := s.iface.a1.toNat
    if (uns = 0 ∧ 2 ≤ bits ∧ bits ≤ 32) ∨ (uns = 1 ∧ 1 ≤ bits ∧ bits ≤ 31) then
      t.pid.outBits.toNat = bits ∧ t.pid.outUns = decide (uns = 1) ∧
      (uns = 0 → sx t.pid.outMax = 2 ^ (bits - 1) - 1 ∧ sx t.pid.outMin = -(2 ^ (bits - 1) - 1)) ∧
      (uns = 1 → sx t.pid.outMax = 2 ^ bits - 1 ∧ sx t.pid.outMin = 0) ∧
      t.pid =
        { s.pid with
          outBits := t.pid.outBits, outUns := t.pid.outUns, outMin := t.pid.outMin, outMax := t.pid.outMax } ∧
      CompletedOk s t
    else t.pid = s.pid ∧ Completed s t .cfgerr false true false

/-- 41_pid.md R127: in the same tick the last output is returned and nothing else is written. -/
def Obligations.PidStepInTheSameTickReturnsTheLastOutput : Prop :=
  ∀ s : State, s.iface.a1 = s.pid.lastTime →
    exec .pidStep s =
      .next
        { s with
          iface := { s.iface with r0 := s.pid.lastOut, status := { s.iface.status with code := .ok } } }

/-- 41_pid.md R125, R126, R128 to R132, R136: the computing step, term by term, with every saturation it records. -/
def Obligations.PidStepComputesTheThreeTerms : Prop :=
  decode 0x00000023 = .ok .pidStep ∧
  ∀ s : State, s.iface.a1 ≠ s.pid.lastTime → ∃ t, exec .pidStep s = .next t ∧
    let dt32 : Int := ((s.iface.a1.toNat : Int) - s.pid.lastTime.toNat) % 2 ^ 32
    let e := limit32 (sx s.iface.a0)
    let dt := min dt32 65535
    let p := sx s.pid.kp * e / 256
    let change := e - sx s.pid.lastErr
    let m := sx s.pid.kd * limit32 change / 256
    let d := if dt > 1 then Int.tdiv m dt else m
    let a := sx s.pid.iacc + (if dt > 1 then e * dt else e)
    let acc := limit (-1073741823) 1073741823 a
    let i := sx s.pid.ki * acc / 256
    let sum := (if sx s.pid.kp = 0 then 0 else limit32 p) + (if sx s.pid.ki = 0 then 0 else limit32 i) +
      (if sx s.pid.kd = 0 then 0 else limit32 d)
    let out := limit (sx s.pid.outMin) (sx s.pid.outMax) sum
    sx t.iface.r0 = out ∧ t.pid.lastOut = t.iface.r0 ∧ sx t.pid.lastErr = e ∧ t.pid.lastTime = s.iface.a1 ∧
    sx t.pid.iacc = (if sx s.pid.ki = 0 then sx s.pid.iacc else acc) ∧
    t.pid =
      { s.pid with
        lastErr := t.pid.lastErr, iacc := t.pid.iacc, lastTime := t.pid.lastTime, lastOut := t.pid.lastOut } ∧
    Recorded s t
      (excess32 (sx s.iface.a0) + excess 0 65535 dt32 + (if sx s.pid.kp = 0 then 0 else excess32 p) +
        (if sx s.pid.kd = 0 then 0 else excess32 change + excess32 d) +
        (if sx s.pid.ki = 0 then 0 else excess (-1073741823) 1073741823 a + excess32 i) +
        excess (sx s.pid.outMin) (sx s.pid.outMax) sum) ∧
    CompletedOk s t ∧ ResultFrame s t ∧ t.sns = s.sns ∧ t.env = s.env

/-- 41_pid.md R131, R133 (c): a computing step's result lies in the declared range, wherever the range is one. -/
def Obligations.PidStepOutputStaysInTheDeclaredRange : Prop :=
  ∀ s : State, sx s.pid.outMin ≤ sx s.pid.outMax → s.iface.a1 ≠ s.pid.lastTime →
    ∃ t, exec .pidStep s = .next t ∧ sx s.pid.outMin ≤ sx t.iface.r0 ∧ sx t.iface.r0 ≤ sx s.pid.outMax

/-- 41_pid.md R133 (a): a second step with the same `now`, whatever its error, returns the same result and changes no PID state. -/
def Obligations.PidStepIsIdempotentWithinATick : Prop :=
  ∀ (s : State) (e : Word), ∃ t u, exec .pidStep s = .next t ∧
    exec .pidStep { t with iface := { t.iface with a0 := e } } = .next u ∧ u.iface.r0 = t.iface.r0 ∧ u.pid = t.pid ∧
    u.iface.satcnt = t.iface.satcnt

/-- 41_pid.md R132: with `KI = 0` the accumulator is neither read nor written: another accumulator gives the same state but for
the accumulator, which keeps its value. -/
def Obligations.ZeroIntegralGainIgnoresTheAccumulator : Prop :=
  ∀ (s : State) (x : Word), s.pid.ki = 0 → ∃ t, exec .pidStep s = .next t ∧ t.pid.iacc = s.pid.iacc ∧
    exec .pidStep { s with pid := { s.pid with iacc := x } } = .next { t with pid := { t.pid with iacc := x } }

/-- 41_pid.md R134: with nonnegative gains and an accumulator in `0 .. IMAX`, `n` steps of the same negative error bring the
output to 0 or below once `n` steps of decrease cover the accumulator. On the first step the derivative may still be positive
where the error before it was more negative; R134 speaks of the step "where the error turned", so that case asks for a second
step. -/
def Obligations.IntegralWindupRecoversInBoundedSteps : Prop :=
  ∀ (s : State) (E : Int) (dt n : Nat),
    0 ≤ sx s.pid.kp → 0 < sx s.pid.ki → 0 ≤ sx s.pid.kd → 0 ≤ sx s.pid.iacc → sx s.pid.iacc ≤ 1073741823 →
    sx s.pid.outMin ≤ 0 → 0 ≤ sx s.pid.outMax → 0 < E → E ≤ 2147483647 → 1 ≤ dt → dt ≤ 65535 → 1 ≤ n →
    sx s.pid.iacc ≤ n * (E * dt) → (2 ≤ n ∨ -E ≤ sx s.pid.lastErr) →
      sx (ticks (enc (-E)) dt n s).iface.r0 ≤ 0 ∧ sx s.pid.outMin ≤ sx (ticks (enc (-E)) dt n s).iface.r0

/-- 41_pid.md R133 (c): with all gains 1.0, the default range and the largest error at every millisecond, every output is the
upper bound, for any number of ticks. -/
def Obligations.SustainedLargestErrorPinsTheOutput : Prop :=
  ∀ (s : State) (n : Nat), sx s.pid.kp = 256 → sx s.pid.ki = 256 → sx s.pid.kd = 256 → 0 ≤ sx s.pid.iacc →
    sx s.pid.outMin = -32767 → sx s.pid.outMax = 32767 → 1 ≤ n →
      sx (ticks 0x7FFFFFFF 1 n s).iface.r0 = 32767

/-- 70_reset_and_hazards.md R216: after `PID.CFG`, `PID.CFGSTD` or `PID.SETOUT` a step with the time of the last computing step
returns the output computed before. -/
def Obligations.ReconfigurationLeavesAStaleOutput : Prop :=
  ∀ (i : Instr) (s t : State) (e : Word), i ∈ [Instr.pidCfg, .pidCfgstd, .pidSetout] → exec i s = .next t →
    ∃ u, exec .pidStep (withStepOperands t e s.pid.lastTime) = .next u ∧ u.iface.r0 = s.pid.lastOut ∧ u.pid = t.pid

/-! ### The sensor array estimator unit -/

/-- 42_sensor.md R153. -/
def Obligations.SnsResetDiscardsCalibration : Prop :=
  decode 0x00000030 = .ok .snsReset ∧
  ∀ s : State, ∃ t, exec .snsReset s = .next t ∧
    (∀ i : Fin 8, t.sns.min[i] = 255 ∧ t.sns.max[i] = 0 ∧ t.sns.range[i] = 0) ∧ (∀ b : Fin 16, t.sns.hist[b] = 0) ∧
    t.sns.valid = false ∧ t.sns.phase = .calibrating ∧
    t.sns =
      { s.sns with
        min := t.sns.min, max := t.sns.max, range := t.sns.range, hist := t.sns.hist, valid := t.sns.valid,
        phase := t.sns.phase } ∧
    CompletedOk s t ∧ Recorded s t 0 ∧ NoResultFrame s t ∧ t.pid = s.pid ∧ t.env = s.env

/-- 42_sensor.md R151, R152. -/
def Obligations.SnsReadStoresTheSamples : Prop :=
  decode 0x00000031 = .ok .snsRead ∧
  ∀ s : State, ∃ t, exec .snsRead s = .next t ∧ (∀ i : Fin 8, t.sns.raw[i] = s.incoming i) ∧ t.sns.chsel = 7 ∧
    t.sns = { s.sns with raw := t.sns.raw, chsel := t.sns.chsel } ∧ t.env = afterSamples s ∧ CompletedOk s t ∧
    Recorded s t 0 ∧ NoResultFrame s t ∧ t.pid = s.pid

/-- 42_sensor.md R154 to R157, R160. -/
def Obligations.SnsCalWidensAndFeedsTheHistogram : Prop :=
  decode 0x00000032 = .ok .snsCal ∧
  ∀ s : State, ∃ t, exec .snsCal s = .next t ∧
    (∀ i : Fin 8, t.sns.raw[i] = s.incoming i ∧
      t.sns.min[i].toNat = min s.sns.min[i].toNat (s.incoming i).toNat ∧
      t.sns.max[i].toNat = max s.sns.max[i].toNat (s.incoming i).toNat ∧
      t.sns.range[i].toNat = widenedRange s i) ∧
    (t.sns.valid = true ↔ validAfter s) ∧ t.iface.r0 = (if t.sns.valid then 1 else 0) ∧
    t.sns.phase = .calibrating ∧ t.sns.chsel = 7 ∧
    (t.sns.valid = true →
      (∀ b : Fin 16, t.sns.hist[b].toNat = min (s.sns.hist[b].toNat + bucketCount s b) 65535) ∧
      Recorded s t (∑ b : Fin 16, (s.sns.hist[b].toNat + bucketCount s b - 65535))) ∧
    (t.sns.valid = false → t.sns.hist = s.sns.hist ∧ Recorded s t 0) ∧
    t.sns =
      { s.sns with
        raw := t.sns.raw, min := t.sns.min, max := t.sns.max, range := t.sns.range, hist := t.sns.hist,
        valid := t.sns.valid, phase := t.sns.phase, chsel := t.sns.chsel } ∧
    t.env = afterSamples s ∧ CompletedOk s t ∧ ResultFrame s t ∧ t.pid = s.pid

/-- 42_sensor.md R161, R162. -/
def Obligations.SnsPolFindsTheMedianBucket : Prop :=
  decode 0x00000033 = .ok .snsPol ∧
  ∀ s : State, ∃ t, exec .snsPol s = .next t ∧
    (∃ c < 16, cumulative s.sns 15 ≤ 2 * cumulative s.sns c ∧
      (∀ d < c, 2 * cumulative s.sns d < cumulative s.sns 15) ∧ t.sns.polarity = decide (c < 8)) ∧
    t.iface.r0 = (if t.sns.polarity then 1 else 0) ∧ t.sns = { s.sns with polarity := t.sns.polarity } ∧
    CompletedOk s t ∧ Recorded s t 0 ∧ ResultFrame s t ∧ t.pid = s.pid ∧ t.env = s.env

/-- 42_sensor.md R163: mass below the middle, mass above it, an empty and a uniform histogram. -/
def Obligations.SnsPolDecidesTheNamedCases : Prop :=
  ∀ s t : State, exec .snsPol s = .next t →
    ((∀ b : Fin 16, 8 ≤ b.val → s.sns.hist[b] = 0) → t.sns.polarity = true) ∧
    ((∀ b : Fin 16, b.val < 8 → s.sns.hist[b] = 0) → (∃ b : Fin 16, s.sns.hist[b] ≠ 0) → t.sns.polarity = false) ∧
    ((∀ b c : Fin 16, s.sns.hist[b] = s.sns.hist[c]) → t.sns.polarity = true)

/-- 42_sensor.md R166. -/
def Obligations.SnsCoeffGeneratesMirroredCoefficients : Prop :=
  decode 0x00000034 = .ok .snsCoeff ∧
  ∀ s : State, ∃ t, exec .snsCoeff s = .next t ∧
    (let wf := limit32 (sx s.iface.a0)
     (∀ k : Fin 4, sx t.sns.coef[(⟨3 - k.val, by omega⟩ : Fin 8)] = -coefficient wf k ∧
       sx t.sns.coef[(⟨4 + k.val, by omega⟩ : Fin 8)] = coefficient wf k) ∧
     Recorded s t (excess32 (sx s.iface.a0) + ∑ k : Fin 4, excess32 (coefficient wf k * wf / 256))) ∧
    t.sns = { s.sns with coef := t.sns.coef, phase := .calibrated } ∧ CompletedOk s t ∧ NoResultFrame s t ∧
    t.pid = s.pid ∧ t.env = s.env

/-- 42_sensor.md R167 (T-7): after `SNS.COEFF` mirrored channels carry opposite coefficients, all within the symmetric range, and
their sum is 0. -/
def Obligations.SnsCoeffIsAntisymmetric : Prop :=
  ∀ s t : State, exec .snsCoeff s = .next t →
    Antisymmetric t.sns ∧ (∀ i : Fin 8, Within 2147483647 t.sns.coef[i]) ∧ ∑ i : Fin 8, sx t.sns.coef[i] = 0

/-- 42_sensor.md R168 to R173. -/
def Obligations.SnsPosWeighsTheNormalizedChannels : Prop :=
  decode 0x00000035 = .ok .snsPos ∧
  ∀ s : State, ∃ t, exec .snsPos s = .next t ∧
    (∀ i : Fin 8, t.sns.raw[i] = s.incoming i ∧ (t.sns.norm[i].toNat : Int) = normalized s i) ∧
    sx t.iface.r0 = limit32 (weightedSum s.sns (normalized s)) ∧
    Recorded s t
      ((∑ i : Fin 8, if s.sns.range[i].toNat = 0 then 0 else excess 0 255 (scaled s i)) +
        excess32 (weightedSum s.sns (normalized s))) ∧
    t.sns.phase = .reading ∧ t.sns.chsel = 7 ∧
    t.sns =
      { s.sns with raw := t.sns.raw, norm := t.sns.norm, phase := t.sns.phase, chsel := t.sns.chsel } ∧
    t.env = afterSamples s ∧ CompletedOk s t ∧ ResultFrame s t ∧ t.pid = s.pid

/-- 42_sensor.md R169: where the channels of nonzero range are calibrated (10_state.md R40), each one's normalized value is
`floor(255 * (c - MIN) / RANGE)` for the sample clamped into its interval, 0 at `MIN` and below, 255 at `MAX` and above, in
`0 .. 255` before the byte saturation; neither the clamp nor the byte saturation records an event. -/
def Obligations.NormalizationIsFloorOverTheRange : Prop :=
  ∀ s t : State, exec .snsPos s = .next t →
    (∀ i : Fin 8, s.sns.range[i] ≠ 0 →
      s.sns.min[i].toNat < s.sns.max[i].toNat ∧ s.sns.range[i].toNat = s.sns.max[i].toNat - s.sns.min[i].toNat) →
      Recorded s t (excess32 (weightedSum s.sns (normalized s))) ∧
      ∀ i : Fin 8, s.sns.range[i] ≠ 0 →
        t.sns.norm[i].toNat =
          255 * (max s.sns.min[i].toNat (min s.sns.max[i].toNat (s.incoming i).toNat) - s.sns.min[i].toNat) /
            s.sns.range[i].toNat ∧
        ((s.incoming i).toNat ≤ s.sns.min[i].toNat → t.sns.norm[i] = 0) ∧
        (s.sns.max[i].toNat ≤ (s.incoming i).toNat → t.sns.norm[i] = 255) ∧
        0 ≤ scaled s i ∧ scaled s i ≤ 255

/-- 42_sensor.md R174 (T-8): a symmetric pattern of normalized values has position 0, and mirroring a pattern negates the
position exactly, in either polarity and either mode. -/
def Obligations.MirroredPatternNegatesThePosition : Prop :=
  ∀ s t : State, Antisymmetric s.sns → exec .snsPos s = .next t →
    ((∀ i j : Fin 8, i.val + j.val = 7 → normalized s i = normalized s j) → t.iface.r0 = 0) ∧
    ∀ s' t' : State, s'.sns.coef = s.sns.coef → s'.sns.polarity = s.sns.polarity →
      s'.sns.digital = s.sns.digital → s'.sns.dthr = s.sns.dthr →
      (∀ i j : Fin 8, i.val + j.val = 7 → normalized s' i = normalized s j) →
      exec .snsPos s' = .next t' → sx t'.iface.r0 = -sx t.iface.r0

/-- 42_sensor.md R173 (T-11): the position is bounded by 255 times the sum of the coefficients' magnitudes; where that sum is at
most 7680 (R166's example, weight factor 2.0) the position is the exact sum and its saturation never acts. -/
def Obligations.PositionIsBoundedByTheCoefficients : Prop :=
  ∀ s t : State, exec .snsPos s = .next t →
    |sx t.iface.r0| ≤ 255 * ∑ i : Fin 8, |sx s.sns.coef[i]| ∧
    (∑ i : Fin 8, |sx s.sns.coef[i]| ≤ 7680 →
      sx t.iface.r0 = weightedSum s.sns (normalized s) ∧ excess32 (weightedSum s.sns (normalized s)) = 0)

/-- 42_sensor.md R155 (T-6): after `SNS.RESET`, or after power-on reset, and any sequence of calibration passes, a channel's bounds are the least and the
greatest sample it was given, and its range lies between them. -/
def Obligations.CalibrationBoundsAreTheExtremeSamples : Prop :=
  ∀ (r : State) (passes : List (Vector Byte 8)), r = State.reset ∨ (∃ s, exec .snsReset s = .next r) →
    let t := passes.foldl calWith r
    ∀ i : Fin 8,
      t.sns.min[i].toNat = (passes.map fun v => v[i].toNat).foldl min 255 ∧
      t.sns.max[i].toNat = (passes.map fun v => v[i].toNat).foldl max 0 ∧
      (passes ≠ [] → t.sns.range[i].toNat = t.sns.max[i].toNat - t.sns.min[i].toNat ∧
        t.sns.min[i].toNat ≤ t.sns.max[i].toNat)

/-- 42_sensor.md R175. -/
def Obligations.SnsOnfloorJudgesTheFloorBand : Prop :=
  decode 0x00000036 = .ok .snsOnfloor ∧
  ∀ s : State,
    exec .snsOnfloor s =
      .next
        { s with
          iface := { s.iface with
            r0 := if ∀ i : Fin 8, s.sns.floorLo ≤ s.sns.raw[i] ∧ s.sns.raw[i] ≤ s.sns.floorHi then 1 else 0,
            status := { s.iface.status with code := .ok } } }

/-- 42_sensor.md R176. -/
def Obligations.SnsOnlineJudgesTheLineBand : Prop :=
  decode 0x00000037 = .ok .snsOnline ∧
  ∀ s : State,
    exec .snsOnline s =
      .next
        { s with
          iface := { s.iface with
            r0 := if ∃ i : Fin 8, s.sns.raw[i] < s.sns.lineLo ∨ s.sns.lineHi < s.sns.raw[i] then 1 else 0,
            status := { s.iface.status with code := .ok } } }

/-! ### Encodings -/

/-- 30_encoding.md R87: decoding an encoded command gives it back, a legal word is the encoding of what it decodes to, and the
encodings are the sixteen opcode bytes, zero-extended. -/
def Obligations.DecodeAndEncodeAreInverse : Prop :=
  (∀ i : Instr, decode (encode i) = .ok i ∧ decodeTableWord 32 (encode i).toNat = some i) ∧
  (∀ (p : Word) (i : Instr), decode p = .ok i → encode i = p) ∧
  (encode .fxMul = 0x10 ∧ encode .fxDiv = 0x11 ∧ encode .fxSat = 0x12 ∧ encode .fxMac = 0x13 ∧
    encode .pidCfg = 0x20 ∧ encode .pidCfgstd = 0x21 ∧ encode .pidSetout = 0x22 ∧ encode .pidStep = 0x23 ∧
    encode .snsReset = 0x30 ∧ encode .snsRead = 0x31 ∧ encode .snsCal = 0x32 ∧ encode .snsPol = 0x33 ∧
    encode .snsCoeff = 0x34 ∧ encode .snsPos = 0x35 ∧ encode .snsOnfloor = 0x36 ∧ encode .snsOnline = 0x37)

/-- 30_encoding.md R82: some of the table's words, one of each unit, and the illegal words of R83 by the field they break. -/
def Obligations.TableWordsDecodeAsTabled : Prop :=
  decode 0b00000000000000000000000000010010 = .ok .fxSat ∧ decode 0b00000000000000000000000000100001 = .ok .pidCfgstd ∧
  decode 0b00000000000000000000000000110110 = .ok .snsOnfloor ∧ decode 0x00000000 = .error .noUnit ∧
  decode 0x00000014 = .error .noFunc ∧ decode 0x00000024 = .error .noFunc ∧ decode 0x00000038 = .error .noFunc ∧
  decode 0x00000040 = .error .noUnit ∧ decode 0x00000110 = .error .reservedBits ∧
  decode 0x80000023 = .error .reservedBits

/-- 20_memory.md R62: the numbers of the register map are read and written alike, and the mapped numbers are the listed ones. -/
def Obligations.LocationNumbersAreInverse : Prop :=
  (∀ l : Loc, Loc.ofNumber l.number = some l) ∧ (∀ (n : Byte) (l : Loc), Loc.ofNumber n = some l → l.number = n) ∧
  ∀ n : Byte, (Loc.ofNumber n).isSome = true ↔ mapped n.toNat

/-- 30_encoding.md R88: the line encoding of a transaction is read back as that transaction. -/
def Obligations.LineEncodingIsReadBack : Prop :=
  ∀ x : Txn, Txn.ofLine x.toLine = some x

/-- 30_encoding.md R90: the worked encoding. -/
def Obligations.WorkedLinesExpandAsWritten : Prop :=
  Line.expand (.pseudo (.pidStep (.dec 100) (.dec 10))) =
    [.txn (.wr 0x02 0x00000064), .txn (.wr 0x03 0x0000000A), .txn (.wr 0x00 0x00000023)] ∧
  Line.expand (.pseudo (.fxMul (.dec (-1)) (.dec 1))) =
    [.txn (.wr 0x02 0xFFFFFFFF), .txn (.wr 0x03 0x00000001), .txn (.wr 0x00 0x00000010)] ∧
  Line.expand (.rd (.name .r0)) = [.txn (.rd 0x05)] ∧
  Txn.toLine (.wr 0x02 0x00000064) = ['W', ' ', '0', '2', ' ', '0', '0', '0', '0', '0', '0', '6', '4'] ∧
  Txn.toLine (.wr 0x03 0x0000000A) = ['W', ' ', '0', '3', ' ', '0', '0', '0', '0', '0', '0', '0', 'A'] ∧
  Txn.toLine (.wr 0x00 0x00000023) = ['W', ' ', '0', '0', ' ', '0', '0', '0', '0', '0', '0', '2', '3'] ∧
  Txn.toLine (.wr 0x02 0xFFFFFFFF) = ['W', ' ', '0', '2', ' ', 'F', 'F', 'F', 'F', 'F', 'F', 'F', 'F'] ∧
  Txn.toLine (.wr 0x03 0x00000001) = ['W', ' ', '0', '3', ' ', '0', '0', '0', '0', '0', '0', '0', '1'] ∧
  Txn.toLine (.wr 0x00 0x00000010) = ['W', ' ', '0', '0', ' ', '0', '0', '0', '0', '0', '0', '1', '0'] ∧
  Txn.toLine (.rd 0x05) = ['R', ' ', '0', '5']

/-! ### The invariant of the block -/

/-- 10_state.md R40 holds right after reset. -/
def Obligations.InvariantHoldsAtReset : Prop := Inv State.reset

/-- 10_state.md R40: every step, from any state that meets the invariant, gives a state that meets it. -/
def Obligations.EveryStepKeepsTheInvariant : Prop :=
  ∀ s t : State, Inv s → step s = .next t → Inv t

/-- 10_state.md R40: every state reachable from reset by host operations, with any samples, meets the invariant. -/
def Obligations.ReachableStatesMeetTheInvariant : Prop :=
  ∀ (ops : List HostOp) (samples : List Byte) (n : Nat) (t : State),
    Sys2Proof.core.run n { State.reset with env := { Env.reset with pending := ops, samples := samples } } = .next t →
      Inv t
end

