-- ==== Sys2Proof/Laws/State.lean ====
section
/-! SUPPORT. One lemma per component per update of State, each true by rfl, so that no proof unfolds a record update. -/

namespace Sys2Proof.Machine

variable (s : State)

@[simp] theorem setR0_iface (v : Word) : (s.setR0 v).iface = { s.iface with r0 := v } := rfl
@[simp] theorem setR0_pid (v : Word) : (s.setR0 v).pid = s.pid := rfl
@[simp] theorem setR0_sns (v : Word) : (s.setR0 v).sns = s.sns := rfl
@[simp] theorem setR0_env (v : Word) : (s.setR0 v).env = s.env := rfl

@[simp] theorem setAcc_iface (v : Word) : (s.setAcc v).iface = { s.iface with acc := v } := rfl
@[simp] theorem setAcc_pid (v : Word) : (s.setAcc v).pid = s.pid := rfl
@[simp] theorem setAcc_sns (v : Word) : (s.setAcc v).sns = s.sns := rfl
@[simp] theorem setAcc_env (v : Word) : (s.setAcc v).env = s.env := rfl

@[simp] theorem setPid_iface (x : Pid) : (s.setPid x).iface = s.iface := rfl
@[simp] theorem setPid_pid (x : Pid) : (s.setPid x).pid = x := rfl
@[simp] theorem setPid_sns (x : Pid) : (s.setPid x).sns = s.sns := rfl
@[simp] theorem setPid_env (x : Pid) : (s.setPid x).env = s.env := rfl

@[simp] theorem setSns_iface (x : Sns) : (s.setSns x).iface = s.iface := rfl
@[simp] theorem setSns_pid (x : Sns) : (s.setSns x).pid = s.pid := rfl
@[simp] theorem setSns_sns (x : Sns) : (s.setSns x).sns = x := rfl
@[simp] theorem setSns_env (x : Sns) : (s.setSns x).env = s.env := rfl

@[simp] theorem setPhase_iface (p : Phase) : (s.setPhase p).iface = s.iface := rfl
@[simp] theorem setPhase_pid (p : Phase) : (s.setPhase p).pid = s.pid := rfl
@[simp] theorem setPhase_sns (p : Phase) : (s.setPhase p).sns = { s.sns with phase := p } := rfl
@[simp] theorem setPhase_env (p : Phase) : (s.setPhase p).env = s.env := rfl

@[simp] theorem complete_iface (c : Code) :
    (s.complete c).iface = { s.iface with status := { s.iface.status with code := c } } := rfl
@[simp] theorem complete_pid (c : Code) : (s.complete c).pid = s.pid := rfl
@[simp] theorem complete_sns (c : Code) : (s.complete c).sns = s.sns := rfl
@[simp] theorem complete_env (c : Code) : (s.complete c).env = s.env := rfl

@[simp] theorem setDz_iface :
    s.setDz.iface = { s.iface with status := { s.iface.status with dz := true } } := rfl
@[simp] theorem setDz_pid : s.setDz.pid = s.pid := rfl
@[simp] theorem setDz_sns : s.setDz.sns = s.sns := rfl
@[simp] theorem setDz_env : s.setDz.env = s.env := rfl

@[simp] theorem configError_iface :
    s.configError.iface = { s.iface with status := { s.iface.status with ce := true, code := .cfgerr } } := rfl
@[simp] theorem configError_pid : s.configError.pid = s.pid := rfl
@[simp] theorem configError_sns : s.configError.sns = s.sns := rfl
@[simp] theorem configError_env : s.configError.env = s.env := rfl

@[simp] theorem illegalCommand_iface :
    s.illegalCommand.iface = { s.iface with status := { s.iface.status with ill := true, code := .illegal } } := rfl
@[simp] theorem illegalCommand_pid : s.illegalCommand.pid = s.pid := rfl
@[simp] theorem illegalCommand_sns : s.illegalCommand.sns = s.sns := rfl
@[simp] theorem illegalCommand_env : s.illegalCommand.env = s.env := rfl

@[simp] theorem recordSat_iface :
    s.recordSat.iface =
      { s.iface with satcnt := bumpSatcnt s.iface.satcnt, status := { s.iface.status with sat := true } } := rfl
@[simp] theorem recordSat_pid : s.recordSat.pid = s.pid := rfl
@[simp] theorem recordSat_sns : s.recordSat.sns = s.sns := rfl
@[simp] theorem recordSat_env : s.recordSat.env = s.env := rfl

@[simp] theorem observe_iface (e : Event) : (s.observe e).iface = s.iface := rfl
@[simp] theorem observe_pid (e : Event) : (s.observe e).pid = s.pid := rfl
@[simp] theorem observe_sns (e : Event) : (s.observe e).sns = s.sns := rfl
@[simp] theorem observe_env (e : Event) : (s.observe e).env = { s.env with trace := s.env.trace ++ [e] } := rfl

@[simp] theorem setPending_iface (ops : List HostOp) : (s.setPending ops).iface = s.iface := rfl
@[simp] theorem setPending_pid (ops : List HostOp) : (s.setPending ops).pid = s.pid := rfl
@[simp] theorem setPending_sns (ops : List HostOp) : (s.setPending ops).sns = s.sns := rfl
@[simp] theorem setPending_env (ops : List HostOp) : (s.setPending ops).env = { s.env with pending := ops } := rfl

@[simp] theorem setSamples_iface (v : List Byte) : (s.setSamples v).iface = s.iface := rfl
@[simp] theorem setSamples_pid (v : List Byte) : (s.setSamples v).pid = s.pid := rfl
@[simp] theorem setSamples_sns (v : List Byte) : (s.setSamples v).sns = s.sns := rfl
@[simp] theorem setSamples_env (v : List Byte) : (s.setSamples v).env = { s.env with samples := v } := rfl

@[simp] theorem powerOn_iface : s.powerOn.iface = Iface.reset := rfl
@[simp] theorem powerOn_pid : s.powerOn.pid = Pid.reset := rfl
@[simp] theorem powerOn_sns : s.powerOn.sns = Sns.reset := rfl
@[simp] theorem powerOn_env : s.powerOn.env = s.env := rfl

@[simp] theorem readChannel_iface (i : Fin Config.N) : (s.readChannel i).iface = s.iface := rfl
@[simp] theorem readChannel_pid (i : Fin Config.N) : (s.readChannel i).pid = s.pid := rfl
@[simp] theorem readChannel_sns (i : Fin Config.N) :
    (s.readChannel i).sns =
      { s.sns with chsel := BitVec.ofNat 4 i, raw := s.sns.raw.set i (s.incoming 0) } := rfl
@[simp] theorem readChannel_env (i : Fin Config.N) : (s.readChannel i).env = s.env.take i (s.incoming 0) := rfl

/-- Two states with equal components are equal. -/
theorem State.ext_parts {s t : State} (hi : s.iface = t.iface) (hp : s.pid = t.pid) (hs : s.sns = t.sns)
    (he : s.env = t.env) : s = t := by
  cases s; cases t; simp_all

end Sys2Proof.Machine
end

