-- ==== Sys2Proof/Laws/Operands.lean ====
section
/-! SUPPORT. The laws of the shared arithmetic: how the operations look as plain integer arithmetic, reading back what is
stored, the bounds of a clamp, the existence of a median bucket. -/

namespace Sys2Proof

@[simp] theorem fxMax_eq : Config.fxMax = 2147483647 := by decide
@[simp] theorem gainMax_eq : Config.gainMax = 2147483647 := by decide
@[simp] theorem termMax_eq : Config.termMax = 2147483647 := by decide
@[simp] theorem iMax_eq : Config.iMax = 1073741823 := by decide
@[simp] theorem dtMax_eq : Config.dtMax = 65535 := by decide
@[simp] theorem histMax_eq : Config.histMax = 65535 := by decide
@[simp] theorem one_eq : Config.one = 256 := by decide

/-- The signed reading of a register is a 32-bit two's-complement number. -/
theorem sx_bounds (p : Word) : -2147483648 ≤ sx p ∧ sx p ≤ 2147483647 := by
  have h1 := BitVec.le_toInt p
  have h2 := BitVec.toInt_lt (x := p)
  simp only [sx] at *
  omega

/-- A value of the 32-bit range is read back as it was stored. -/
theorem sx_enc {v : Int} (h1 : -2147483648 ≤ v) (h2 : v ≤ 2147483647) : sx (enc v) = v := by
  unfold sx enc
  rw [BitVec.toInt_ofInt]
  exact Int.bmod_eq_of_le (by omega) (by omega)

/-- Storing the signed value of a register gives the register's pattern. -/
@[simp] theorem enc_sx (p : Word) : enc (sx p) = p := by
  simp [sx, enc]

@[simp] theorem sx_zero : sx 0#32 = 0 := by decide

/-- A clamp with ordered bounds stays between them. -/
theorem clamp_bounds {lo hi : Int} (v : Int) (h : lo ≤ hi) : lo ≤ clamp lo hi v ∧ clamp lo hi v ≤ hi := by
  unfold clamp
  split
  · omega
  · split <;> omega

/-- A clamp leaves a value between the bounds as it is. -/
theorem clamp_of_mem {lo hi v : Int} (h1 : lo ≤ v) (h2 : v ≤ hi) : clamp lo hi v = v := by
  unfold clamp
  rw [if_neg (by omega), if_neg (by omega)]

/-- A clamp with ordered bounds as a maximum of a minimum. -/
theorem clamp_eq_max_min {lo hi : Int} (v : Int) (h : lo ≤ hi) : clamp lo hi v = max lo (min hi v) := by
  unfold clamp
  split
  · omega
  · split <;> omega

/-- The model's clamp is the one the statements are written with. -/
theorem clamp_eq_limit (lo hi v : Int) : clamp lo hi v = Safety.limit lo hi v := rfl

/-- A clamp to the symmetric range is read back as it was stored. -/
theorem sx_enc_clamp (v : Int) :
    sx (enc (clamp (-2147483647) 2147483647 v)) = clamp (-2147483647) 2147483647 v := by
  have h := clamp_bounds (lo := -2147483647) (hi := 2147483647) v (by decide)
  exact sx_enc (by omega) (by omega)

theorem mulraw_eq (a b : Int) : mulraw a b = a * b / 256 := rfl

theorem divraw_eq (a b : Int) : divraw a b = Int.tdiv (a * 256) b := by
  simp [divraw, tdiv]

theorem gainClamp_eq (v : Int) : gainClamp v = clamp (-2147483647) 2147483647 v := by
  simp [gainClamp]

theorem gainOob_eq (v : Int) : gainOob v = (decide (v < -2147483647) || decide (2147483647 < v)) := by
  simp [gainOob]

theorem bucket_val (v : Byte) : (bucket v).val = v.toNat / 16 := rfl

/-- The sum of a list is the cumulative sum through its last element. -/
theorem sum_take_length {l : List Nat} (h : l ≠ []) : (l.take (l.length - 1 + 1)).sum = l.sum := by
  have : 0 < l.length := List.length_pos_iff.mpr h
  rw [Nat.sub_add_cancel this, List.take_length]

/-- A median bucket exists, and it is the first whose cumulative sum reaches half the total (42_sensor.md R162). -/
theorem center_exists {l : List Nat} (h : l ≠ []) :
    center l < l.length ∧ l.sum ≤ 2 * (l.take (center l + 1)).sum ∧
      ∀ c < center l, 2 * (l.take (c + 1)).sum < l.sum := by
  have hpos : 0 < l.length := List.length_pos_iff.mpr h
  unfold center
  cases hf : (List.range l.length).find? fun c => decide (l.sum ≤ 2 * (l.take (c + 1)).sum) with
  | none =>
    have := List.find?_eq_none.mp hf (l.length - 1) (List.mem_range.mpr (by omega))
    rw [sum_take_length h] at this
    simp at this
    omega
  | some c =>
    obtain ⟨hc, as, bs, hr, hn⟩ := List.find?_eq_some_iff_append.mp hf
    have hmem : c ∈ List.range l.length := by rw [hr]; simp
    refine ⟨List.mem_range.mp hmem, by simpa using hc, fun d hd => ?_⟩
    have hd' : d ∈ List.range l.length := List.mem_range.mpr (lt_trans hd (List.mem_range.mp hmem))
    rw [hr] at hd'
    have hs : (as ++ c :: bs).Pairwise (· < ·) := hr ▸ List.pairwise_lt_range
    rcases List.mem_append.mp hd' with h1 | h1
    · simpa using hn d h1
    · rcases List.mem_cons.mp h1 with h2 | h2
      · simp at hd; omega
      · have := (List.pairwise_cons.mp (List.pairwise_append.mp hs).2.1).1 d h2
        simp at hd; omega

end Sys2Proof
end

