-- ==== Sys2Proof/Laws/Flags.lean ====
section
/-! SUPPORT. What a saturation does: the value it gives, the event it records, everything else it leaves alone. -/

namespace Sys2Proof.Machine

open Sys2Proof.Safety

variable (s : State) (lo hi v : Int)

@[simp] theorem sat_eq : sat lo hi v s = (clamp lo hi v, s.noteSat lo hi v) := rfl

@[simp] theorem satW_eq :
    satW v s = (clamp (-2147483647) 2147483647 v, s.noteSat (-2147483647) 2147483647 v) := by
  simp [satW]

@[simp] theorem noteSat_pid : (s.noteSat lo hi v).pid = s.pid := by unfold State.noteSat; split <;> rfl
@[simp] theorem noteSat_sns : (s.noteSat lo hi v).sns = s.sns := by unfold State.noteSat; split <;> rfl
@[simp] theorem noteSat_env : (s.noteSat lo hi v).env = s.env := by unfold State.noteSat; split <;> rfl
@[simp] theorem noteSat_a0 : (s.noteSat lo hi v).iface.a0 = s.iface.a0 := by unfold State.noteSat; split <;> rfl
@[simp] theorem noteSat_a1 : (s.noteSat lo hi v).iface.a1 = s.iface.a1 := by unfold State.noteSat; split <;> rfl
@[simp] theorem noteSat_a2 : (s.noteSat lo hi v).iface.a2 = s.iface.a2 := by unfold State.noteSat; split <;> rfl
@[simp] theorem noteSat_r0 : (s.noteSat lo hi v).iface.r0 = s.iface.r0 := by unfold State.noteSat; split <;> rfl
@[simp] theorem noteSat_acc : (s.noteSat lo hi v).iface.acc = s.iface.acc := by unfold State.noteSat; split <;> rfl
@[simp] theorem noteSat_code : (s.noteSat lo hi v).iface.status.code = s.iface.status.code := by
  unfold State.noteSat; split <;> rfl
@[simp] theorem noteSat_dz : (s.noteSat lo hi v).iface.status.dz = s.iface.status.dz := by
  unfold State.noteSat; split <;> rfl
@[simp] theorem noteSat_ce : (s.noteSat lo hi v).iface.status.ce = s.iface.status.ce := by
  unfold State.noteSat; split <;> rfl
@[simp] theorem noteSat_ill : (s.noteSat lo hi v).iface.status.ill = s.iface.status.ill := by
  unfold State.noteSat; split <;> rfl

/-- The counter after one more event holds at its top (10_state.md R27). -/
theorem bumpSatcnt_toNat (n : BitVec 32) : (bumpSatcnt n).toNat = min (n.toNat + 1) (2 ^ 32 - 1) := by
  have := n.isLt
  unfold bumpSatcnt
  split
  · rw [BitVec.toNat_add]
    simp
    omega
  · omega

/-- A clamp that changes nothing leaves the whole state as it is. -/
theorem noteSat_of_eq {s : State} {lo hi v : Int} (h : clamp lo hi v = v) : s.noteSat lo hi v = s := by
  simp [State.noteSat, h]

end Sys2Proof.Machine

namespace Sys2Proof.Safety

open Sys2Proof.Machine

/-- No event recorded. -/
theorem Recorded.zero {s t : State} (h1 : t.iface.satcnt = s.iface.satcnt)
    (h2 : t.iface.status.sat = s.iface.status.sat) : Recorded s t 0 := by
  have := s.iface.satcnt.isLt
  refine ⟨?_, by simp [h2]⟩
  rw [h1]
  omega

/-- Events of two stretches add up. -/
theorem Recorded.trans {s t u : State} {j k : Nat} (h1 : Recorded s t j) (h2 : Recorded t u k) :
    Recorded s u (j + k) := by
  obtain ⟨a1, b1⟩ := h1
  obtain ⟨a2, b2⟩ := h2
  refine ⟨by omega, ?_⟩
  rw [b2, b1, Bool.or_assoc]
  congr 1
  cases j <;> cases k <;> simp

/-- Recording depends on the counter and the flag alone. -/
theorem Recorded.congr {s t u : State} {k : Nat} (h : Recorded s t k) (h1 : u.iface.satcnt = t.iface.satcnt)
    (h2 : u.iface.status.sat = t.iface.status.sat) : Recorded s u k := by
  unfold Recorded at *
  rw [h1, h2]
  exact h

/-- One saturation records one event exactly when it changes its argument (00_scope.md R12). -/
theorem recorded_noteSat (s : State) (lo hi v : Int) : Recorded s (s.noteSat lo hi v) (excess lo hi v) := by
  unfold State.noteSat excess
  rw [clamp_eq_limit]
  split
  · exact Recorded.zero rfl rfl
  · exact ⟨by simp [bumpSatcnt_toNat], by simp⟩

theorem OnlyRecords.refl (s : State) : OnlyRecords s s := rfl

theorem OnlyRecords.trans {s t u : State} (h1 : OnlyRecords s t) (h2 : OnlyRecords t u) : OnlyRecords s u := by
  unfold OnlyRecords at *
  rw [h2, h1]

/-- A saturation changes at most the counter and its flag. -/
theorem onlyRecords_noteSat (s : State) (lo hi v : Int) : OnlyRecords s (s.noteSat lo hi v) := by
  unfold State.noteSat
  split <;> rfl

end Sys2Proof.Safety
end

