-- ==== Sys2Proof/Laws/Ops.lean ====
section
/-! SUPPORT. What the shared operations over the state do: the channel port, the register space, the decoder's two directions. -/

namespace Sys2Proof.Machine

open Sys2Proof.Safety

variable (s : State)

theorem finRange_channels : List.finRange Config.N = [0, 1, 2, 3, 4, 5, 6, 7] := by decide

/-- After one sample the next byte to come is the one after it. -/
@[simp] theorem incoming_readChannel (i : Fin Config.N) (j : Nat) :
    (s.readChannel i).incoming j = s.incoming (j + 1) := by
  simp only [State.incoming, readChannel_env, Env.take, List.getD_eq_getElem?_getD, List.getElem?_drop]
  rw [show 1 + j = j + 1 from Nat.add_comm 1 j, show s.env.sampleNo + 1 + j = s.env.sampleNo + (j + 1) by omega]

/-- The read-all procedure touches no interface register. -/
@[simp] theorem readAll_iface : s.readAll.iface = s.iface := by
  simp [State.readAll, finRange_channels]

/-- The read-all procedure touches no PID register. -/
@[simp] theorem readAll_pid : s.readAll.pid = s.pid := by
  simp [State.readAll, finRange_channels]

/-- Eight writes, one at each channel, give the vector of the values written. -/
theorem set_every {α : Type} (v : Vector α Config.N) (f : Fin Config.N → α) :
    (((((((v.set 0 (f 0)).set 1 (f 1)).set 2 (f 2)).set 3 (f 3)).set 4 (f 4)).set 5 (f 5)).set 6 (f 6)).set 7 (f 7) =
      Vector.ofFn f := by
  apply Vector.ext
  intro j hj
  have : j = 0 ∨ j = 1 ∨ j = 2 ∨ j = 3 ∨ j = 4 ∨ j = 5 ∨ j = 6 ∨ j = 7 := by simp only [Config.N] at hj; omega
  rcases this with h | h | h | h | h | h | h | h <;> subst h <;> simp <;> rfl

/-- The read-all procedure stores the eight incoming bytes and leaves the last channel selected (42_sensor.md R151). -/
@[simp] theorem readAll_sns :
    s.readAll.sns = { s.sns with raw := Vector.ofFn fun i => s.incoming i, chsel := 7 } := by
  rw [← set_every s.sns.raw]
  simp only [State.readAll, finRange_channels, List.foldl_cons, List.foldl_nil, readChannel_sns, incoming_readChannel]
  rfl

/-- The read-all procedure uses up eight bytes, observed at the channels in order (20_memory.md R66). -/
@[simp] theorem readAll_env : s.readAll.env = afterSamples s := by
  simp only [State.readAll, finRange_channels, List.foldl_cons, List.foldl_nil, readChannel_env, incoming_readChannel,
    Env.take, afterSamples, List.drop_drop, List.append_assoc]
  rfl

end Sys2Proof.Machine
end

