-- ==== Sys2Proof/Laws/Pid.lean ====
section
/-! SUPPORT. What the parts of the PID commands do: storing gains, the output bounds, the three terms, the output. -/

namespace Sys2Proof.Safety

open Sys2Proof.Machine

/-- A command that only records events up to its completion with `c` sets no other flag. -/
theorem completed_of_onlyRecords {s t u : State} {c : Code} (h : OnlyRecords s t)
    (hu : u.iface.status = { t.iface.status with code := c }) : Completed s u c false false false := by
  unfold OnlyRecords at h
  rw [h] at hu
  simp [Completed, hu]

/-- Events before the completion do not change what it says. -/
theorem Completed.after {s t u : State} {c : Code} {dz ce ill : Bool} (h : OnlyRecords s t)
    (hu : Completed t u c dz ce ill) : Completed s u c dz ce ill := by
  unfold OnlyRecords at h
  unfold Completed at *
  rw [h] at hu
  exact hu

/-- Events before a result do not change which registers it writes. -/
theorem ResultFrame.after {s t u : State} (h : OnlyRecords s t) (hu : ResultFrame t u) : ResultFrame s u := by
  unfold OnlyRecords ResultFrame at *
  rw [hu, h]

/-- Events before a completion do not change that no result is written. -/
theorem NoResultFrame.after {s t u : State} (h : OnlyRecords s t) (hu : NoResultFrame t u) : NoResultFrame s u := by
  unfold OnlyRecords NoResultFrame at *
  rw [hu, h]

theorem limit_bounds {lo hi : Int} (v : Int) (h : lo ≤ hi) : lo ≤ limit lo hi v ∧ limit lo hi v ≤ hi :=
  clamp_bounds v h

/-- A value limited to two stored bounds is read back as it was stored, whatever the bounds. -/
theorem sx_enc_limit (p q : Word) (v : Int) : sx (enc (limit (sx p) (sx q) v)) = limit (sx p) (sx q) v := by
  have h1 := sx_bounds p
  have h2 := sx_bounds q
  unfold limit
  split
  · simp
  · split
    · simp
    · exact sx_enc (by omega) (by omega)

end Sys2Proof.Safety

namespace Sys2Proof.Machine

open Sys2Proof.Safety

theorem gainOob_eq_outside (v : Int) : gainOob v = outside v := by
  simp [gainOob, outside, Bool.decide_or]

theorem sx_enc_gainClamp (v : Int) : sx (enc (gainClamp v)) = limit32 v := by
  rw [gainClamp_eq, sx_enc_clamp]
  rfl

/-- Everything a configuration of gains does (41_pid.md R121 to R123). -/
theorem applyGains_spec (s : State) (kp ki kd : Int) (b : Bool) :
    (s.applyGains kp ki kd b).pid =
      { s.pid with kp := enc kp, ki := enc ki, kd := enc kd, lastErr := 0, iacc := 0 } ∧
    (s.applyGains kp ki kd b).sns = s.sns ∧ (s.applyGains kp ki kd b).env = s.env ∧
    NoResultFrame s (s.applyGains kp ki kd b) ∧ Recorded s (s.applyGains kp ki kd b) 0 ∧
    Completed s (s.applyGains kp ki kd b) (if b then .cfgerr else .ok) false b false := by
  cases b <;> refine ⟨rfl, rfl, rfl, rfl, Recorded.zero rfl rfl, ?_⟩ <;> simp [State.applyGains, Completed]

/-- The operands `PID.SETOUT` takes, as a proposition (41_pid.md R124). -/
theorem outLegal_iff (bits uns : Nat) :
    outLegal bits uns = true ↔ (uns = 0 ∧ 2 ≤ bits ∧ bits ≤ 32) ∨ (uns = 1 ∧ 1 ≤ bits ∧ bits ≤ 31) := by
  unfold outLegal
  simp only [Bool.or_eq_true, Bool.and_eq_true, beq_iff_eq, and_assoc]
  exact or_congr (and_congr_right fun _ => and_congr decide_eq_true_iff decide_eq_true_iff)
    (and_congr_right fun _ => and_congr decide_eq_true_iff decide_eq_true_iff)

/-- The elapsed time before its saturation, as the difference modulo `2^32` (41_pid.md R126). -/
theorem elapsed_toNat (a b : BitVec 32) : ((a - b).toNat : Int) = ((a.toNat : Int) - b.toNat) % 2 ^ 32 := by
  have := a.isLt
  have := b.isLt
  rw [BitVec.toNat_sub]
  omega

/-- The elapsed time is 0 only in the same tick (41_pid.md R127). -/
theorem elapsed_ne_zero {a b : BitVec 32} (h : a ≠ b) : (a - b).toNat ≠ 0 := by
  intro h0
  have := a.isLt
  have := b.isLt
  rw [BitVec.toNat_sub] at h0
  exact h (BitVec.eq_of_toNat_eq (by omega))

/-- Everything the proportional term does (41_pid.md R128). -/
theorem termP_spec (e : Int) (s : State) :
    (termP e s).1 = (if sx s.pid.kp = 0 then 0 else limit32 (sx s.pid.kp * e / 256)) ∧
    OnlyRecords s (termP e s).2 ∧ (termP e s).2.pid = s.pid ∧ (termP e s).2.sns = s.sns ∧
    (termP e s).2.env = s.env ∧
    Recorded s (termP e s).2 (if sx s.pid.kp = 0 then 0 else excess32 (sx s.pid.kp * e / 256)) := by
  by_cases h : sx s.pid.kp = 0
  · simp only [termP, if_pos h]
    refine ⟨?_, .refl s, ?_, ?_, ?_, ?_⟩ <;> first | trivial | exact Recorded.zero rfl rfl
  · simp only [termP, if_neg h, sat_eq, mulraw_eq, termMax_eq]
    exact ⟨by trivial, onlyRecords_noteSat .., by simp, by simp, by simp, recorded_noteSat ..⟩

/-- Everything the derivative term does (41_pid.md R129). -/
theorem termD_spec (e dt : Int) (s : State) :
    let m := sx s.pid.kd * limit32 (e - sx s.pid.lastErr) / 256
    let d := if dt > 1 then Int.tdiv m dt else m
    (termD e dt s).1 = (if sx s.pid.kd = 0 then 0 else limit32 d) ∧
    OnlyRecords s (termD e dt s).2 ∧ (termD e dt s).2.pid = s.pid ∧ (termD e dt s).2.sns = s.sns ∧
    (termD e dt s).2.env = s.env ∧
    Recorded s (termD e dt s).2
      (if sx s.pid.kd = 0 then 0 else excess32 (e - sx s.pid.lastErr) + excess32 d) := by
  by_cases h : sx s.pid.kd = 0
  · simp only [termD, if_pos h]
    refine ⟨?_, .refl s, ?_, ?_, ?_, ?_⟩ <;> first | trivial | exact Recorded.zero rfl rfl
  · simp only [termD, if_neg h, satW_eq, sat_eq, mulraw_eq, termMax_eq, tdiv, noteSat_pid, gt_iff_lt]
    exact ⟨by trivial, (onlyRecords_noteSat s _ _ _).trans (onlyRecords_noteSat ..), by simp, by simp, by simp,
      (recorded_noteSat s _ _ _).trans (recorded_noteSat ..)⟩

/-- Everything the integral term does, the accumulator's update included (41_pid.md R130, R132). -/
theorem termI_spec (e dt : Int) (s : State) :
    let a := sx s.pid.iacc + (if dt > 1 then e * dt else e)
    let acc := limit (-1073741823) 1073741823 a
    (termI e dt s).1 = (if sx s.pid.ki = 0 then 0 else limit32 (sx s.pid.ki * acc / 256)) ∧
    OnlyRecords s (termI e dt s).2 ∧
    (termI e dt s).2.pid = { s.pid with iacc := if sx s.pid.ki = 0 then s.pid.iacc else enc acc } ∧
    (termI e dt s).2.sns = s.sns ∧ (termI e dt s).2.env = s.env ∧
    Recorded s (termI e dt s).2
      (if sx s.pid.ki = 0 then 0
       else excess (-1073741823) 1073741823 a + excess32 (sx s.pid.ki * acc / 256)) := by
  by_cases h : sx s.pid.ki = 0
  · simp only [termI, if_pos h]
    refine ⟨?_, .refl s, ?_, ?_, ?_, ?_⟩ <;> first | trivial | exact Recorded.zero rfl rfl
  · simp only [termI, if_neg h, sat_eq, mulraw_eq, termMax_eq, iMax_eq, noteSat_pid, gt_iff_lt, setPid_pid,
      clamp_eq_limit, noteSat_sns, noteSat_env, setPid_sns, setPid_env]
    refine ⟨by trivial, ((onlyRecords_noteSat s _ _ _).trans rfl).trans (onlyRecords_noteSat ..), by trivial,
      by trivial, by trivial, (recorded_noteSat s _ _ _).trans (recorded_noteSat ..)⟩

/-- Everything the output does (41_pid.md R131). -/
theorem finishStep_spec (s : State) (e sum : Int) (now : BitVec 32) :
    let out := limit (sx s.pid.outMin) (sx s.pid.outMax) sum
    (s.finishStep e now sum).pid = { s.pid with lastErr := enc e, lastTime := now, lastOut := enc out } ∧
    (s.finishStep e now sum).iface.r0 = enc out ∧ (s.finishStep e now sum).sns = s.sns ∧
    (s.finishStep e now sum).env = s.env ∧ ResultFrame s (s.finishStep e now sum) ∧
    CompletedOk s (s.finishStep e now sum) ∧
    Recorded s (s.finishStep e now sum) (excess (sx s.pid.outMin) (sx s.pid.outMax) sum) := by
  refine ⟨?_, rfl, ?_, ?_, ?_, ?_, ?_⟩
  · simp [State.finishStep, clamp_eq_limit]
  · simp [State.finishStep]
  · simp [State.finishStep]
  · simp [State.finishStep, ResultFrame]
  · exact completed_of_onlyRecords (onlyRecords_noteSat s (sx s.pid.outMin) (sx s.pid.outMax) sum) rfl
  · exact (recorded_noteSat s _ _ _).congr rfl rfl

end Sys2Proof.Machine
end

