-- ==== Sys2Proof/Laws/Sensors.lean ====
section
/-! SUPPORT. What the loops of the sensor unit do: counting samples into the histogram, normalizing every channel,
generating the coefficients. -/

namespace Sys2Proof.Machine

open Sys2Proof.Safety

/-! ### Normalization (42_sensor.md R168 to R170) -/

/-- The normalized value of channel `i` of a sensor unit, from its stored samples. -/
def Sns.normValue (x : Sns) (i : Fin Config.N) : Int :=
  if x.range[i] = 0 then 128 else clamp 0 255 (normalize x.min[i] x.max[i] x.range[i] x.raw[i])

/-- The number of events the byte saturation of channel `i` records. -/
def Sns.normExcess (x : Sns) (i : Fin Config.N) : Nat :=
  if x.range[i] = 0 then 0 else excess 0 255 (normalize x.min[i] x.max[i] x.range[i] x.raw[i])

/-- Normalizing one channel writes that channel's `NORM` and records at most one event. -/
theorem normChannel_spec (s : State) (i : Fin Config.N) :
    (s.normChannel i).sns = { s.sns with norm := s.sns.norm.set i (BitVec.ofInt 8 (s.sns.normValue i)) } ∧
    (s.normChannel i).pid = s.pid ∧ (s.normChannel i).env = s.env ∧ OnlyRecords s (s.normChannel i) ∧
    Recorded s (s.normChannel i) (s.sns.normExcess i) := by
  unfold State.normChannel Sns.normValue Sns.normExcess
  split
  · exact ⟨rfl, rfl, rfl, rfl, Recorded.zero rfl rfl⟩
  · refine ⟨by simp, by simp, by simp, ?_, ?_⟩
    · exact (onlyRecords_noteSat s _ _ _).trans rfl
    · exact (recorded_noteSat s _ _ _).congr rfl rfl

/-- Normalizing a list of channels leaves everything but `NORM` as it is, and the events add up. -/
theorem normChannels_frame (l : List (Fin Config.N)) (s : State) :
    (∃ v, (l.foldl State.normChannel s).sns = { s.sns with norm := v }) ∧
    (l.foldl State.normChannel s).pid = s.pid ∧ (l.foldl State.normChannel s).env = s.env ∧
    OnlyRecords s (l.foldl State.normChannel s) ∧
    Recorded s (l.foldl State.normChannel s) ((l.map s.sns.normExcess).sum) := by
  induction l generalizing s with
  | nil => exact ⟨⟨s.sns.norm, rfl⟩, rfl, rfl, .refl s, Recorded.zero rfl rfl⟩
  | cons i l ih =>
    obtain ⟨hs, hp, he, hi, hr⟩ := normChannel_spec s i
    obtain ⟨⟨v, hv⟩, hp', he', hi', hr'⟩ := ih (s.normChannel i)
    have hx : (s.normChannel i).sns.normExcess = s.sns.normExcess := by rw [hs]; rfl
    rw [hx] at hr'
    simp only [List.foldl_cons, List.map_cons, List.sum_cons]
    exact ⟨⟨v, by rw [hv, hs]⟩, hp'.trans hp, he'.trans he, hi.trans hi', hr.trans hr'⟩

/-- Normalizing every channel: the new `NORM`, everything else as it was, the events recorded. -/
theorem normAll_spec (s : State) :
    s.normAll.sns = { s.sns with norm := Vector.ofFn fun i => BitVec.ofInt 8 (s.sns.normValue i) } ∧
    s.normAll.pid = s.pid ∧ s.normAll.env = s.env ∧ OnlyRecords s s.normAll ∧
    Recorded s s.normAll (∑ i : Fin Config.N, s.sns.normExcess i) := by
  obtain ⟨-, hp, he, hi, hr⟩ := normChannels_frame (List.finRange Config.N) s
  refine ⟨?_, hp, he, hi, ?_⟩
  · rw [← set_every s.sns.norm]
    have h := fun (t : State) (i : Fin Config.N) => (normChannel_spec t i).1
    have hv : ∀ (t : State) (v : Vector Byte Config.N) (i : Fin Config.N),
        t.sns = { s.sns with norm := v } → t.sns.normValue i = s.sns.normValue i := by
      intro t v i ht; rw [ht]; rfl
    simp only [State.normAll, finRange_channels, List.foldl_cons, List.foldl_nil, h]
    rfl
  · rw [Fin.sum_univ_def]
    exact hr

/-! ### Calibration (42_sensor.md R154 to R156) -/

theorem byteMin_toNat (a b : Byte) : (byteMin a b).toNat = min a.toNat b.toNat := by
  unfold byteMin
  split <;> omega

theorem byteMax_toNat (a b : Byte) : (byteMax a b).toNat = max a.toNat b.toNat := by
  unfold byteMax
  split <;> omega

/-- The difference of the widened bounds does not wrap, whatever the bounds were. -/
theorem byteRange_toNat (a b c : Byte) :
    (byteMax a c - byteMin b c).toNat = max a.toNat c.toNat - min b.toNat c.toNat := by
  have h1 := byteMax_toNat a c
  have h2 := byteMin_toNat b c
  have := a.isLt
  have := b.isLt
  have := c.isLt
  rw [BitVec.toNat_sub]
  omega

/-- A widened channel: its bounds take the sample in `RAW`, its range is their distance. -/
theorem widen_channel (x : Sns) (i : Fin 8) :
    x.widen.min[i].toNat = min x.min[i].toNat x.raw[i].toNat ∧
    x.widen.max[i].toNat = max x.max[i].toNat x.raw[i].toNat ∧
    x.widen.range[i].toNat = max x.max[i].toNat x.raw[i].toNat - min x.min[i].toNat x.raw[i].toNat := by
  have h1 : x.widen.min[i] = byteMin x.min[i] x.raw[i] := by simp [Sns.widen]
  have h2 : x.widen.max[i] = byteMax x.max[i] x.raw[i] := by simp [Sns.widen]
  have h3 : x.widen.range[i] = byteMax x.max[i] x.raw[i] - byteMin x.min[i] x.raw[i] := by simp [Sns.widen]
  rw [h1, h2, h3]
  exact ⟨byteMin_toNat _ _, byteMax_toNat _ _, byteRange_toNat _ _ _⟩

theorem isValid_iff (x : Sns) : x.isValid = true ↔ ∀ i : Fin 8, x.vthr.toNat < x.range[i].toNat := by
  simp [Sns.isValid]

/-! ### The histogram (42_sensor.md R157, R160) -/

/-- Counting one sample adds one to its bucket unless it is full, and records the event if it is. -/
theorem countSample_spec (s : State) (i : Fin Config.N) :
    (∃ h, (s.countSample i).sns = { s.sns with hist := h } ∧ ∀ b : Fin Config.H,
      h[b].toNat = if bucket s.sns.raw[i] = b then min (s.sns.hist[b].toNat + 1) 65535 else s.sns.hist[b].toNat) ∧
    (s.countSample i).pid = s.pid ∧ (s.countSample i).env = s.env ∧ OnlyRecords s (s.countSample i) ∧
    Recorded s (s.countSample i) (if s.sns.hist[bucket s.sns.raw[i]].toNat = 65535 then 1 else 0) := by
  have hlt := (s.sns.hist[bucket s.sns.raw[i]]).isLt
  simp only [Config.histBits] at hlt
  refine ⟨⟨s.sns.hist.set (bucket s.sns.raw[i])
      (BitVec.ofInt Config.histBits (clamp 0 Config.histMax ((s.sns.hist[bucket s.sns.raw[i]].toNat : Int) + 1))),
    by simp only [State.countSample, sat_eq, setSns_sns, noteSat_sns], fun b => ?_⟩,
    by simp [State.countSample], by simp [State.countSample], ?_, ?_⟩
  · by_cases hb : bucket s.sns.raw[i] = b
    · subst hb
      simp only [if_true, histMax_eq, Fin.getElem_fin, Vector.getElem_set_self]
      rw [clamp_eq_max_min _ (by decide), BitVec.toNat_ofInt]
      simp only [Fin.getElem_fin, Config.histBits] at hlt ⊢
      omega
    · have : (bucket s.sns.raw[i]).val ≠ b.val := fun h => hb (Fin.ext h)
      rw [if_neg hb]
      simp only [Fin.getElem_fin, Vector.getElem_set]
      rw [if_neg (by simpa using this)]
  · exact (onlyRecords_noteSat s _ _ _).trans rfl
  · have h := recorded_noteSat s 0 Config.histMax ((s.sns.hist[bucket s.sns.raw[i]].toNat : Int) + 1)
    have he : excess 0 Config.histMax ((s.sns.hist[bucket s.sns.raw[i]].toNat : Int) + 1) =
        if s.sns.hist[bucket s.sns.raw[i]].toNat = 65535 then 1 else 0 := by
      simp only [excess, limit, histMax_eq]
      split_ifs <;> omega
    rw [he] at h
    exact h.congr rfl rfl

/-- Counting a list of channels: every bucket takes its samples up to its top, and every lost increment is an event. -/
theorem countSamples_list (l : List (Fin Config.N)) (s : State) :
    (∃ h, (l.foldl State.countSample s).sns = { s.sns with hist := h } ∧ ∀ b : Fin Config.H,
      h[b].toNat = min (s.sns.hist[b].toNat + l.countP fun i => bucket s.sns.raw[i] = b) 65535) ∧
    (l.foldl State.countSample s).pid = s.pid ∧ (l.foldl State.countSample s).env = s.env ∧
    OnlyRecords s (l.foldl State.countSample s) ∧
    Recorded s (l.foldl State.countSample s)
      (∑ b : Fin Config.H, (s.sns.hist[b].toNat + (l.countP fun i => bucket s.sns.raw[i] = b) - 65535)) := by
  induction l generalizing s with
  | nil =>
    refine ⟨⟨s.sns.hist, rfl, fun b => ?_⟩, rfl, rfl, .refl s, ?_⟩
    · have := (s.sns.hist[b]).isLt
      simp only [Config.histBits] at this
      simp only [List.countP_nil]
      omega
    · have hz : (∑ b : Fin Config.H, (s.sns.hist[b].toNat + (([] : List (Fin Config.N)).countP fun i =>
          decide (bucket s.sns.raw[i] = b)) - 65535)) = 0 := by
        refine Finset.sum_eq_zero fun b _ => ?_
        have := (s.sns.hist[b]).isLt
        simp only [Config.histBits] at this
        simp only [List.countP_nil]
        omega
      rw [hz]
      exact Recorded.zero rfl rfl
  | cons i l ih =>
    obtain ⟨⟨h, hs, hh⟩, hp, he, hi, hr⟩ := countSample_spec s i
    obtain ⟨⟨h', hs', hh'⟩, hp', he', hi', hr'⟩ := ih (s.countSample i)
    have hraw : (s.countSample i).sns.raw = s.sns.raw := by rw [hs]
    have hhist : (s.countSample i).sns.hist = h := by rw [hs]
    rw [hraw, hhist] at hh' hr'
    have hb := fun b : Fin Config.H => (s.sns.hist[b]).isLt
    simp only [Config.histBits] at hb
    refine ⟨⟨h', by rw [List.foldl_cons, hs', hs], fun b => ?_⟩, hp'.trans hp, he'.trans he, hi.trans hi', ?_⟩
    · rw [hh' b, hh b, List.countP_cons]
      have := hb b
      by_cases hc : bucket s.sns.raw[i] = b <;> simp only [hc, if_true, if_false, decide_true, decide_false] <;>
        first | omega | simp
    · refine (hr.trans hr').congr rfl rfl |> fun hx => ?_
      have hsum : (if s.sns.hist[bucket s.sns.raw[i]].toNat = 65535 then 1 else 0) +
          (∑ b : Fin Config.H, (h[b].toNat + (l.countP fun j => decide (bucket s.sns.raw[j] = b)) - 65535)) =
          ∑ b : Fin Config.H, (s.sns.hist[b].toNat + ((i :: l).countP fun j => decide (bucket s.sns.raw[j] = b)) - 65535) := by
        have hone : (if s.sns.hist[bucket s.sns.raw[i]].toNat = 65535 then 1 else 0) =
            ∑ b : Fin Config.H, if b = bucket s.sns.raw[i] then (if s.sns.hist[b].toNat = 65535 then 1 else 0) else 0 := by
          simp
        rw [hone, ← Finset.sum_add_distrib]
        refine Finset.sum_congr rfl fun b _ => ?_
        rw [hh b, List.countP_cons]
        have := hb b
        by_cases hc : bucket s.sns.raw[i] = b
        · simp only [hc, if_true, decide_true]
          split <;> omega
        · have hc' : b ≠ bucket s.sns.raw[i] := fun e => hc e.symm
          simp only [hc, hc', if_false, decide_false]
          simp
      rw [hsum] at hx
      exact hx

/-- Counting every channel, in the terms of the eight samples' buckets. -/
theorem countSamples_spec (s : State) :
    (∃ h, s.countSamples.sns = { s.sns with hist := h } ∧ ∀ b : Fin 16,
      h[b].toNat =
        min (s.sns.hist[b].toNat + (Finset.univ.filter fun i : Fin 8 => s.sns.raw[i].toNat / 16 = b.val).card) 65535) ∧
    s.countSamples.pid = s.pid ∧ s.countSamples.env = s.env ∧ OnlyRecords s s.countSamples ∧
    Recorded s s.countSamples
      (∑ b : Fin 16,
        (s.sns.hist[b].toNat + (Finset.univ.filter fun i : Fin 8 => s.sns.raw[i].toNat / 16 = b.val).card - 65535)) := by
  have hc : ∀ b : Fin 16, ((List.finRange Config.N).countP fun i => decide (bucket s.sns.raw[i] = b)) =
      (Finset.univ.filter fun i : Fin 8 => s.sns.raw[i].toNat / 16 = b.val).card := by
    intro b
    rw [Finset.card_def, Finset.filter_val, ← Multiset.countP_eq_card_filter]
    show _ = List.countP _ (List.finRange 8)
    apply List.countP_congr
    intro i _
    simp [Fin.ext_iff, bucket_val]
  have h := countSamples_list (List.finRange Config.N) s
  simp only [hc] at h
  exact h

/-! ### The median bucket (42_sensor.md R161, R162) -/

@[simp] theorem counts_length (x : Sns) : x.counts.length = 16 := by
  simp [Sns.counts]

/-- A cumulative sum over the list of counts is the sum the statements are written with. -/
theorem counts_take_sum (x : Sns) (c : Nat) : (x.counts.take (c + 1)).sum = cumulative x c := by
  have h : x.counts = List.ofFn fun b : Fin 16 => x.hist[b].toNat := by
    rw [List.ofFn_eq_map]
    rfl
  rw [h, List.sum_take_ofFn, Finset.sum_filter]
  exact Finset.sum_congr rfl fun b _ => if_congr Nat.lt_succ_iff rfl rfl

/-- The bucket `SNS.POL` decides by: the first whose cumulative sum reaches half the total. -/
theorem center_counts (x : Sns) :
    center x.counts < 16 ∧ cumulative x 15 ≤ 2 * cumulative x (center x.counts) ∧
      ∀ d < center x.counts, 2 * cumulative x d < cumulative x 15 := by
  have hne : x.counts ≠ [] := List.ne_nil_of_length_pos (by simp)
  have ht : x.counts.sum = cumulative x 15 := by
    rw [← counts_take_sum, ← sum_take_length hne, counts_length]
  have h := center_exists hne
  simp only [counts_length, ht, counts_take_sum] at h
  exact h

/-- `SNS.POL` as one composition. -/
theorem execSnsPol_eq (s : State) :
    execSnsPol s =
      .next (((s.setSns { s.sns with polarity := decide (center s.sns.counts < 8) }).setR0
        (boolWord (decide (center s.sns.counts < 8)))).complete .ok) := by
  simp only [execSnsPol, Config.H, Nat.reduceDiv]

/-! ### The coefficients (42_sensor.md R166) -/

/-- One pair written, the next value outward, the event of its product. -/
theorem coeffPair_spec (wf x : Int) (s : State) (k : Fin Config.pairs) :
    (coeffPair wf (x, s) k).1 = limit32 (x * wf / 256) ∧
    (coeffPair wf (x, s) k).2.sns =
      { s.sns with
        coef := (s.sns.coef.set (3 - k.val) (enc (-x)) (by have := k.isLt; simp only [Config.N]; omega)).set (4 + k.val)
          (enc x) (by have := k.isLt; simp only [Config.pairs, Config.N] at *; omega) } ∧
    (coeffPair wf (x, s) k).2.pid = s.pid ∧ (coeffPair wf (x, s) k).2.env = s.env ∧
    OnlyRecords s (coeffPair wf (x, s) k).2 ∧ Recorded s (coeffPair wf (x, s) k).2 (excess32 (x * wf / 256)) := by
  refine ⟨by simp [coeffPair, mulraw_eq, clamp_eq_limit, limit32], by simp [coeffPair], by simp [coeffPair],
    by simp [coeffPair], ?_, ?_⟩
  · simp only [coeffPair, satW_eq]
    exact OnlyRecords.trans (t := s.setSns _) rfl (onlyRecords_noteSat _ _ _ _)
  · simp only [coeffPair, satW_eq, mulraw_eq]
    have h := fun y : Sns => Recorded.trans (Recorded.zero (s := s) (t := s.setSns y) rfl rfl)
      (recorded_noteSat _ (-2147483647) 2147483647 (x * wf / 256))
    simp only [Nat.zero_add] at h
    exact h _

/-- The four pairs written by `SNS.COEFF`: mirrored channels carry opposite values, the events of the four products add up. -/
theorem coeffLoop_spec (wf : Int) (s : State) :
    let t := ((List.finRange Config.pairs).foldl (coeffPair wf) (Config.one, s)).2
    (∃ v : Vector Word Config.N, t.sns = { s.sns with coef := v } ∧ ∀ k : Fin 4,
      v[(⟨3 - k.val, by omega⟩ : Fin 8)] = enc (-coefficient wf k) ∧
      v[(⟨4 + k.val, by omega⟩ : Fin 8)] = enc (coefficient wf k)) ∧
    t.pid = s.pid ∧ t.env = s.env ∧ OnlyRecords s t ∧
    Recorded s t (∑ k : Fin 4, excess32 (coefficient wf k * wf / 256)) := by
  have hl : List.finRange Config.pairs = [0, 1, 2, 3] := by decide
  simp only [hl, List.foldl_cons, List.foldl_nil, one_eq]
  obtain ⟨x1, c1, p1, e1, o1, r1⟩ := coeffPair_spec wf 256 s 0
  generalize coeffPair wf (256, s) 0 = q1 at *
  obtain ⟨y1, t1⟩ := q1
  obtain ⟨x2, c2, p2, e2, o2, r2⟩ := coeffPair_spec wf y1 t1 1
  generalize coeffPair wf (y1, t1) 1 = q2 at *
  obtain ⟨y2, t2⟩ := q2
  obtain ⟨x3, c3, p3, e3, o3, r3⟩ := coeffPair_spec wf y2 t2 2
  generalize coeffPair wf (y2, t2) 2 = q3 at *
  obtain ⟨y3, t3⟩ := q3
  obtain ⟨-, c4, p4, e4, o4, r4⟩ := coeffPair_spec wf y3 t3 3
  generalize coeffPair wf (y3, t3) 3 = q4 at *
  simp only at *
  have h1 : y1 = coefficient wf 1 := x1
  have h2 : y2 = coefficient wf 2 := by rw [x2, h1]; rfl
  have h3 : y3 = coefficient wf 3 := by rw [x3, h2]; rfl
  refine ⟨⟨q4.2.sns.coef, ?_, fun k => ?_⟩, p4.trans (p3.trans (p2.trans p1)), e4.trans (e3.trans (e2.trans e1)),
    ((o1.trans o2).trans o3).trans o4, ?_⟩
  · rw [c4, c3, c2, c1]
  · have hk : k = 0 ∨ k = 1 ∨ k = 2 ∨ k = 3 := by omega
    rw [c4, c3, c2, c1]
    rcases hk with h | h | h | h <;> subst h <;>
      simp [Config.N, Config.pairs, h1, h2, h3, coefficient]
  · have h := ((r1.trans r2).trans r3).trans r4
    rw [h1, h2, h3] at h
    rw [Fin.sum_univ_four]
    exact h

/-! ### The position (42_sensor.md R168 to R173) -/

theorem positionSum_eq (x : Sns) : x.positionSum = ∑ i : Fin 8, x.weight i * sx x.coef[i] := by
  rw [Fin.sum_univ_def]
  rfl

/-- The weight a channel has is the one the statements give its normalized value. -/
theorem weight_eq (x : Sns) (i : Fin 8) : x.weight i = weightOf x x.norm[i].toNat := rfl

/-- The stored normalized value is a byte, so the byte that is stored is read back. -/
theorem normValue_read (x : Sns) (i : Fin 8) : ((BitVec.ofInt 8 (x.normValue i)).toNat : Int) = x.normValue i := by
  have h := clamp_bounds (lo := 0) (hi := 255) (normalize x.min[i] x.max[i] x.range[i] x.raw[i]) (by decide)
  rw [BitVec.toNat_ofInt]
  unfold Sns.normValue
  split
  · decide
  · simp only [Fin.getElem_fin] at h ⊢
    omega

/-- `SNS.POS` as one composition. -/
theorem execSnsPos_eq (s : State) :
    execSnsPos s =
      .next ((((s.readAll.normAll.noteSat (-2147483647) 2147483647 s.readAll.normAll.sns.positionSum).setR0
        (enc (clamp (-2147483647) 2147483647 s.readAll.normAll.sns.positionSum))).setPhase .reading).complete .ok) := by
  simp only [execSnsPos, satW_eq]

/-- `SNS.COEFF` as one composition. -/
theorem execSnsCoeff_eq (s : State) :
    execSnsCoeff s =
      .next (((((List.finRange Config.pairs).foldl (coeffPair (limit32 (sx s.iface.a0)))
        (Config.one, s.noteSat (-2147483647) 2147483647 (sx s.iface.a0))).2).setPhase .calibrated).complete .ok) := by
  simp only [execSnsCoeff, satW_eq]
  rfl

end Sys2Proof.Machine
end

