-- ==== Sys2Proof/Laws/Transact.lean ====
section
/-! SUPPORT. What a host operation does, by the kind of location; the digits of the line encoding. -/

namespace Sys2Proof

/-- A digit is found at its own place among the sixteen. -/
theorem idxOf_hexDigits {d : Nat} (h : d < 16) : hexDigits.idxOf (hexDigits.getD d '0') = d := by
  have : ∀ d : Fin 16, hexDigits.idxOf (hexDigits.getD d.val '0') = d.val := by decide
  exact this ⟨d, h⟩

theorem ofHex_append (a b : List Char) (acc : Nat) :
    ofHex acc (a ++ b) = (ofHex acc a).bind fun n => ofHex n b := by
  induction a generalizing acc with
  | nil => rfl
  | cons c a ih =>
    simp only [List.cons_append, ofHex]
    split
    · exact ih _
    · rfl

/-- The digits of a number are read back, up to the digits there are (30_encoding.md R88). -/
theorem ofHex_toHex (k n acc : Nat) : ofHex acc (toHex k n) = some (acc * 16 ^ k + n % 16 ^ k) := by
  induction k generalizing n with
  | zero => simp [toHex, ofHex, Nat.mod_one]
  | succ k ih =>
    rw [toHex, ofHex_append, ih]
    simp only [Option.bind_some, ofHex, idxOf_hexDigits (Nat.mod_lt n (by decide : 0 < 16)),
      Nat.mod_lt n (by decide : 0 < 16), if_true]
    congr 1
    rw [Nat.pow_succ, Nat.mul_comm (16 ^ k) 16, Nat.mod_mul]
    ring

@[simp] theorem toHex_length (k n : Nat) : (toHex k n).length = k := by
  induction k generalizing n with
  | zero => rfl
  | succ k ih => simp [toHex, ih]

end Sys2Proof

namespace Sys2Proof.Machine

open Sys2Proof.Safety

variable (s : State)

@[simp] theorem afterTxn_eq (x : Txn) : afterTxn x s = transact x s := rfl

@[simp] theorem transact_rd (n : Byte) : transact (.rd n) s = .next (s.observe (.read n (s.readReg n))) := rfl

/-- A write to `CMD` runs the command (20_memory.md R65). -/
theorem transact_cmd (p : Word) : transact (.wr 0x00 p) s = runCommand p s := by
  have h : Loc.ofNumber 0x00 = some .cmd := by decide
  simp only [transact, h]

/-- A write to any other mapped location (20_memory.md R62 to R64). -/
theorem transact_loc {n : Byte} {l : Loc} (p : Word) (h : Loc.ofNumber n = some l) (hc : l ≠ .cmd) :
    transact (.wr n p) s = .next (s.writeLoc l p) := by
  simp only [transact, h]

/-- A write to an unmapped location (20_memory.md R63). -/
theorem transact_unmapped {n : Byte} (p : Word) (h : Loc.ofNumber n = none) : transact (.wr n p) s = .next s := by
  simp only [transact, h]

/-- The three ways a host write can go. -/
theorem transact_wr_cases (n : Byte) (p : Word) :
    (∃ i, decode p = .ok i ∧ transact (.wr n p) s = exec i s) ∨
    transact (.wr n p) s = .next s.illegalCommand ∨
    (∃ l, Loc.ofNumber n = some l ∧ l ≠ .cmd ∧ transact (.wr n p) s = .next (s.writeLoc l p)) ∨
    transact (.wr n p) s = .next s := by
  cases h : Loc.ofNumber n with
  | none => exact .inr (.inr (.inr (transact_unmapped s p h)))
  | some l =>
    by_cases hc : l = .cmd
    · subst hc
      simp only [transact, h, runCommand]
      cases hd : decode p with
      | ok i => exact .inl ⟨i, rfl, rfl⟩
      | error e => exact .inr (.inl rfl)
    · exact .inr (.inr (.inl ⟨l, rfl, hc, transact_loc s p h hc⟩))

/-- A transaction with its own samples: it runs on them alone, and what was supplied before stands again (30_encoding.md R88). -/
theorem transactWith_next {t : Txn} {v : List Byte} {u : State} (h : transact t (s.setSamples v) = .next u) :
    transactWith t v s = .next (u.setSamples s.env.samples) := by
  simp only [transactWith, h]

/-- The bytes of a bracket are the next ones to come. -/
theorem incoming_setSamples (v : Vector Byte 8) (j : Fin 8) : (s.setSamples v.toList).incoming j = v[j] := by
  simp [State.incoming]

/-- A command with a full bracket is one host operation. -/
theorem issueWith_vector (i : Instr) (v : Vector Byte 8) :
    issueWith i v.toList = .sampled (.wr 0x00 (encode i)) v.toList := by
  cases h : v.toList with
  | nil => simpa using congrArg List.length h
  | cons a l => rfl

/-- What a host write to `ACC` does: the saturated value, its event, nothing else (20_memory.md R64). -/
theorem writeAcc_spec (p : Word) :
    (s.writeAcc p).iface.acc = enc (clamp (-2147483647) 2147483647 (sx p)) ∧
    (s.writeAcc p).pid = s.pid ∧ (s.writeAcc p).sns = s.sns ∧ (s.writeAcc p).env = s.env ∧
    (s.writeAcc p).iface =
      { s.iface with
        acc := (s.writeAcc p).iface.acc, satcnt := (s.writeAcc p).iface.satcnt,
        status := { s.iface.status with sat := (s.writeAcc p).iface.status.sat } } ∧
    Recorded s (s.writeAcc p) (excess32 (sx p)) := by
  refine ⟨by simp [State.writeAcc], by simp [State.writeAcc], by simp [State.writeAcc], by simp [State.writeAcc], ?_, ?_⟩
  · have h := onlyRecords_noteSat s (-2147483647) 2147483647 (sx p)
    unfold OnlyRecords at h
    simp only [State.writeAcc, satW_eq, setAcc_iface]
    rw [h]
  · simp only [State.writeAcc, satW_eq]
    exact (recorded_noteSat s _ _ _).congr rfl rfl

end Sys2Proof.Machine
end

