-- ==== Sys2Proof/Laws/PerInstr.lean ====
section
/-! SUPPORT. What holds of every command as syntax: its word has format C (30_encoding.md R80). -/

namespace Sys2Proof.Laws.Format

/-- The command is well formed, and its word has zero reserved bits, a unit that exists and a function of at most three bits. -/
def Statement (i : Instr) : Prop :=
  i.wf = true ∧ (encode i).extractLsb' 8 24 = 0#24 ∧ unitField (encode i) ∈ [1, 2, 3] ∧ funcField (encode i) < 8

theorem fxMul : Statement .fxMul := by unfold Statement; decide
theorem fxDiv : Statement .fxDiv := by unfold Statement; decide
theorem fxSat : Statement .fxSat := by unfold Statement; decide
theorem fxMac : Statement .fxMac := by unfold Statement; decide
theorem pidCfg : Statement .pidCfg := by unfold Statement; decide
theorem pidCfgstd : Statement .pidCfgstd := by unfold Statement; decide
theorem pidSetout : Statement .pidSetout := by unfold Statement; decide
theorem pidStep : Statement .pidStep := by unfold Statement; decide
theorem snsReset : Statement .snsReset := by unfold Statement; decide
theorem snsRead : Statement .snsRead := by unfold Statement; decide
theorem snsCal : Statement .snsCal := by unfold Statement; decide
theorem snsPol : Statement .snsPol := by unfold Statement; decide
theorem snsCoeff : Statement .snsCoeff := by unfold Statement; decide
theorem snsPos : Statement .snsPos := by unfold Statement; decide
theorem snsOnfloor : Statement .snsOnfloor := by unfold Statement; decide
theorem snsOnline : Statement .snsOnline := by unfold Statement; decide

end Sys2Proof.Laws.Format
end

