-- ==== Sys2Proof/Tests/Slice0.lean ====
section
/-! SUPPORT. The model's own tests. Every expected value is one of the spec's: a vector of 95_test_vectors.md (named V-…), a
worked example of a rule, or a word written out from 30_encoding.md R82. -/

namespace Sys2Proof.Tests

open Sys2Proof.Machine Sys2Proof.Safety

/-! ### Well-formedness: each check refuses an ill-formed term -/

theorem test_config_wf : Config.params.wf = true := by decide

/-- The fixed constants are the ones 00_scope.md R7 relates: `H = 2^h`, pairs `N/2`. -/
theorem test_config_constants : Config.H = 2 ^ Config.hLog ∧ 2 * Config.pairs = Config.N := by decide

theorem test_wfScale_refuses :
    Params.wfScale { Config.params with W := 31 } = false ∧ Params.wfScale { Config.params with F := 0 } = false ∧
    Params.wfScale { Config.params with F := 31 } = false := by decide

theorem test_wfArrays_refuses :
    Params.wfArrays { Config.params with N := 7 } = false ∧ Params.wfArrays { Config.params with N := 0 } = false ∧
    Params.wfArrays { Config.params with N := 18 } = false ∧ Params.wfArrays { Config.params with H := 12 } = false ∧
    Params.wfArrays { Config.params with H := 1 } = false ∧ Params.wfArrays { Config.params with H := 32 } = false := by
  decide

theorem test_wfPid_refuses :
    Params.wfPid { Config.params with iMax := 0 } = false ∧
    Params.wfPid { Config.params with iMax := 2147483647 } = false ∧
    Params.wfPid { Config.params with gainMax := 0 } = false ∧
    Params.wfPid { Config.params with gainMax := 2147483648 } = false ∧
    Params.wfPid { Config.params with dtBits := 0 } = false ∧ Params.wfPid { Config.params with dtBits := 33 } = false ∧
    Params.wfPid { Config.params with termMax := 2147483648 } = false := by decide

theorem test_params_wf_refuses :
    Params.wf { Config.params with W := 16 } = false ∧ Params.wf { Config.params with N := 5 } = false ∧
    Params.wf { Config.params with dtBits := 40 } = false := by decide

theorem test_value_wf_refuses :
    (Value.dec 2147483648).wf = false ∧ (Value.dec (-2147483649)).wf = false ∧ (Value.hex 4294967296).wf = false := by
  decide

theorem test_line_wf_refuses :
    (Line.wr (.name .a0) (.dec 2147483648)).wf = false ∧ (Line.cmd .snsPos [1, 2, 3]).wf = false ∧
    (Line.cmd .snsCal []).wf = false ∧ (Line.cmd .snsRead [1, 2, 3, 4, 5, 6, 7, 8, 9]).wf = false ∧
    (Line.cmd .fxMul [1]).wf = false ∧ (Line.cmd .snsReset [1, 2, 3, 4, 5, 6, 7, 8]).wf = false ∧
    (Line.pseudo (.fxMul (.dec 1) (.hex 4294967296))).wf = false ∧
    (Line.pseudo (.pidCfg (.dec 1) (.dec 1) (.dec 2147483648))).wf = false := by decide

theorem test_line_wf_takes :
    (Line.wr (.name .a0) (.dec (-2147483648))).wf = true ∧ (Line.cmd .snsPos [1, 2, 3, 4, 5, 6, 7, 8]).wf = true ∧
    (Line.cmd .fxMul []).wf = true ∧ (Line.rd (.number 0xFF)).wf = true := by decide

/-! ### Decoding: every command's word written out from 30_encoding.md R80 and R82 (`rsv`, then `unit`, then `func`) -/

theorem test_decode_fx :
    decode 0b00000000000000000000000000010000 = .ok .fxMul ∧ decode 0b00000000000000000000000000010001 = .ok .fxDiv ∧
    decode 0b00000000000000000000000000010010 = .ok .fxSat ∧ decode 0b00000000000000000000000000010011 = .ok .fxMac := by
  decide

theorem test_decode_pid :
    decode 0b00000000000000000000000000100000 = .ok .pidCfg ∧
    decode 0b00000000000000000000000000100001 = .ok .pidCfgstd ∧
    decode 0b00000000000000000000000000100010 = .ok .pidSetout ∧
    decode 0b00000000000000000000000000100011 = .ok .pidStep := by decide

theorem test_decode_sns :
    decode 0b00000000000000000000000000110000 = .ok .snsReset ∧
    decode 0b00000000000000000000000000110001 = .ok .snsRead ∧
    decode 0b00000000000000000000000000110010 = .ok .snsCal ∧
    decode 0b00000000000000000000000000110011 = .ok .snsPol ∧
    decode 0b00000000000000000000000000110100 = .ok .snsCoeff ∧
    decode 0b00000000000000000000000000110101 = .ok .snsPos ∧
    decode 0b00000000000000000000000000110110 = .ok .snsOnfloor ∧
    decode 0b00000000000000000000000000110111 = .ok .snsOnline := by decide

/-- V-ENC-2 to V-ENC-6: illegal words, by the field they break. -/
theorem test_decode_rejects :
    decode 0x00000000 = .error .noUnit ∧ decode 0x00000014 = .error .noFunc ∧ decode 0x00000110 = .error .reservedBits ∧
    decode 0x80000023 = .error .reservedBits ∧ decode 0x00000038 = .error .noFunc ∧ decode 0x00000024 = .error .noFunc ∧
    decode 0x00000040 = .error .noUnit ∧ decode 0x000000FF = .error .noUnit := by decide

theorem test_decodeTableWord :
    decodeTableWord 32 0x23 = some .pidStep ∧ decodeTableWord 8 0x23 = some .pidStep ∧
    decodeTableWord 32 0x123 = none ∧ decodeTableWord 40 0x100000023 = none := by decide

/-! ### States to test on -/

/-- Reset with the operand registers set. -/
def operands (a0 a1 a2 : Word) : State :=
  { State.reset with iface := { Iface.reset with a0 := a0, a1 := a1, a2 := a2, r0 := 0x1234 } }

/-- What `f` says of the state after one command. -/
def see {α : Type} (f : State → α) (i : Instr) (s : State) : Option α :=
  match exec i s with
  | .next t => some (f t)
  | .fault _ => none
  | .refused _ => none

/-- What `f` says of the state after one host transaction. -/
def seeTxn {α : Type} (f : State → α) (x : Txn) (s : State) : Option α :=
  match afterTxn x s with
  | .next t => some (f t)
  | .fault _ => none
  | .refused _ => none

/-- The result, the event count and `STATUS`. -/
def outcome (t : State) : Int × Nat × Nat := (sx t.iface.r0, t.iface.satcnt.toNat, t.iface.status.word.toNat)

/-- Every channel calibrated to `0 .. 255`, the coefficients of 42_sensor.md R166's example, the samples given
(the state of V-SNS-20). -/
def calibrated (samples : List Byte) : State :=
  { State.reset with
    sns := { Sns.reset with
      min := Vector.replicate 8 0, max := Vector.replicate 8 255, range := Vector.replicate 8 255,
      coef := Vector.ofFn fun i => enc ([-2048, -1024, -512, -256, 256, 512, 1024, 2048].getD i 0) },
    env := { Env.reset with samples := samples } }

/-- Reset with the last samples of the examples of 42_sensor.md R175 and R176 and the bands given. -/
def banded (lo hi lo' hi' : Byte) : State :=
  { State.reset with
    sns := { Sns.reset with
      raw := Vector.ofFn fun i => [10, 20, 30, 40, 50, 60, 70, 80].getD i 0, floorLo := lo, floorHi := hi, lineLo := lo',
      lineHi := hi' } }

/-- Reset with a histogram. -/
def counted (h : List (BitVec 16)) : State :=
  { State.reset with sns := { Sns.reset with hist := Vector.ofFn fun i => h.getD i 0 } }

/-! ### One step of each command -/

/-- V-FX-4, V-FX-6, V-FX-11, V-FX-12. -/
theorem test_fxMul :
    see outcome .fxMul (operands (enc (-1)) 1 0) = some (-1, 0, 0) ∧
    see outcome .fxMul (operands (enc (-3)) 128 0) = some (-2, 0, 0) ∧
    see outcome .fxMul (operands 0x80000000 0x80000000 0) = some (2147483647, 1, 0x400) ∧
    see outcome .fxMul (operands 0x80000000 256 0) = some (-2147483647, 1, 0x400) := by decide

/-- V-FX-19, V-FX-20, V-FX-24, V-FX-27. -/
theorem test_fxDiv :
    see outcome .fxDiv (operands (enc (-1)) 3 0) = some (-85, 0, 0) ∧
    see outcome .fxDiv (operands 1 (enc (-3)) 0) = some (-85, 0, 0) ∧
    see outcome .fxDiv (operands 5 0 0) = some (0, 0, 0x101) ∧
    see outcome .fxDiv (operands 0x80000000 (enc (-1)) 0) = some (2147483647, 1, 0x400) := by decide

/-- V-FX-32, V-FX-37, V-FX-38. -/
theorem test_fxSat_clamps :
    see outcome .fxSat (operands (enc (-32768)) 16 0) = some (-32767, 1, 0x400) ∧
    see outcome .fxSat (operands (enc (-5)) 2 0) = some (-1, 1, 0x400) ∧
    see outcome .fxSat (operands 0x80000000 32 0) = some (-2147483647, 1, 0x400) := by decide

/-- V-FX-39 to V-FX-41: `R0` (0x1234 here) stays. -/
theorem test_fxSat_refuses_widths :
    see outcome .fxSat (operands 1 1 0) = some (0x1234, 0, 0x202) ∧
    see outcome .fxSat (operands 1 33 0) = some (0x1234, 0, 0x202) ∧
    see outcome .fxSat (operands 1 0 0) = some (0x1234, 0, 0x202) := by decide

/-- V-FX-43 and the corner case of 40_fixed_point.md R104. -/
theorem test_fxMac :
    see (fun t => (outcome t, sx t.iface.acc)) .fxMac ((operands (enc (-256)) 256 0).setAcc 1536) =
      some ((1280, 0, 0), 1280) ∧
    see (fun t => (outcome t, sx t.iface.acc)) .fxMac ((operands 256 256 0).setAcc 0x7FFFFFFF) =
      some ((2147483647, 1, 0x400), 2147483647) := by decide

/-- 41_pid.md R122's example; `0x80000000` is clamped and reported, no saturation event (R121). -/
theorem test_pidCfg :
    see (fun t => ([sx t.pid.kp, sx t.pid.ki, sx t.pid.kd], outcome t)) .pidCfg (operands 512 64 256) =
      some ([512, 64, 256], 0x1234, 0, 0) ∧
    see (fun t => ([sx t.pid.kp, sx t.pid.ki, sx t.pid.kd], outcome t)) .pidCfg (operands 0x80000000 5 6) =
      some ([-2147483647, 5, 6], 0x1234, 0, 0x202) := by decide

/-- 41_pid.md R123's corner cases and example. -/
theorem test_pidCfgstd :
    see (fun t => (sx t.pid.kp, sx t.pid.ki, sx t.pid.kd, t.iface.status.word.toNat)) .pidCfgstd
      (operands (enc (-300)) 7 3) = some (-300, -10971, -4, 0) ∧
    see (fun t => (sx t.pid.kp, sx t.pid.ki, sx t.pid.kd, t.iface.status.word.toNat)) .pidCfgstd
      (operands 512 0 128) = some (512, 0, 256, 0) ∧
    see (fun t => (sx t.pid.kp, sx t.pid.ki, sx t.pid.kd, t.iface.status.word.toNat)) .pidCfgstd
      (operands 2147483647 1 2147483647) = some (2147483647, 2147483647, 2147483647, 0x202) := by decide

/-- 41_pid.md R124's corner cases. -/
theorem test_pidSetout :
    see (fun t => (sx t.pid.outMin, sx t.pid.outMax, (t.readReg 0x13).toNat, t.iface.status.word.toNat)) .pidSetout
      (operands 8 1 0) = some (0, 255, 0x108, 0) ∧
    see (fun t => (sx t.pid.outMin, sx t.pid.outMax, (t.readReg 0x13).toNat, t.iface.status.word.toNat)) .pidSetout
      (operands 32 0 0) = some (-2147483647, 2147483647, 0x20, 0) ∧
    see (fun t => (sx t.pid.outMin, sx t.pid.outMax, (t.readReg 0x13).toNat, t.iface.status.word.toNat)) .pidSetout
      (operands 32 1 0) = some (-32767, 32767, 0x10, 0x202) := by decide

/-- Reset with gains, transients and operands. -/
def running (kp ki kd lastErr iacc : Int) (lastTime : Word) (e : Int) (now : Word) : State :=
  { State.reset with
    iface := { Iface.reset with a0 := enc e, a1 := now, r0 := 0x1234 },
    pid := { Pid.reset with
      kp := enc kp, ki := enc ki, kd := enc kd, lastErr := enc lastErr, iacc := enc iacc, lastTime := lastTime,
      lastOut := 460 } }

/-- 41_pid.md R125's example, and R130's with its negative accumulator. -/
theorem test_pidStep_computes :
    see (fun t => (outcome t, sx t.pid.lastErr, sx t.pid.iacc, t.pid.lastTime.toNat)) .pidStep
      (running 512 64 256 0 0 0 100 10) = some ((460, 0, 0), 100, 1000, 10) ∧
    see (fun t => sx t.pid.iacc) .pidStep (running 0 64 0 0 900 0 (-40) 65535) = some (-2620500) := by decide

/-- 41_pid.md R127 (the same tick), and R126: a clock that wrapped by 5 gives `dt = 5` (an error of 20, gain 1.0, adds 100). -/
theorem test_pidStep_time :
    see (fun t => (outcome t, sx t.pid.lastErr)) .pidStep (running 512 64 256 0 0 10 (-9999) 10) =
      some ((460, 0, 0), 0) ∧
    see (fun t => sx t.pid.iacc) .pidStep (running 0 256 0 0 0 0xFFFFFFFE 20 3) = some 100 := by decide

/-- 42_sensor.md R153's example, with a calibrated channel before. -/
theorem test_snsReset :
    see (fun t => ((t.readReg 0x53).toNat, (t.readReg 0x63).toNat, (t.readReg 0x73).toNat,
      (t.readReg 0x25).toNat)) .snsReset (calibrated []) = some (255, 0, 0, 5) := by decide

/-- 42_sensor.md R152's example: the samples in order, and the port they leave. -/
theorem test_snsRead :
    see (fun t => (t.sns.raw.toList, (t.readReg 0x26).toNat, t.env.samples, t.env.trace.length)) .snsRead
      (calibrated [10, 20, 30, 40, 50, 60, 70, 80, 99]) = some ([10, 20, 30, 40, 50, 60, 70, 80], 7, [99], 8) := by decide

/-- 42_sensor.md R154's example, second pass: `HIST[15] = 8`, valid. -/
theorem test_snsCal_valid :
    see (fun t => (outcome t, t.sns.hist[15].toNat, t.sns.range.toList, t.sns.valid)) .snsCal
      { State.reset with
        sns := { Sns.reset with min := Vector.replicate 8 0, max := Vector.replicate 8 0 },
        env := { Env.reset with samples := List.replicate 8 255 } } =
      some ((1, 0, 0), 8, List.replicate 8 255, true) := by decide

/-- 42_sensor.md R154's example, first pass; R157: no bucket changes on an invalid pass. -/
theorem test_snsCal_invalid :
    see (fun t => (outcome t, t.sns.hist.toList, t.sns.min.toList, t.sns.max.toList)) .snsCal
      { State.reset with env := { Env.reset with samples := List.replicate 8 0 } } =
      some ((0, 0, 0), List.replicate 16 0, List.replicate 8 0, List.replicate 8 0) := by decide

/-- 42_sensor.md R161's example (centre 12), and R163: an empty histogram, and a tie at bucket 7. -/
theorem test_snsPol :
    see outcome .snsPol (counted [7, 0, 0, 0, 0, 0, 0, 0, 0, 0, 0, 0, 1, 0, 0, 8]) = some (0, 0, 0) ∧
    see outcome .snsPol (counted []) = some (1, 0, 0) ∧
    see outcome .snsPol (counted [0, 0, 0, 0, 0, 0, 0, 9, 9]) = some (1, 0, 0) := by decide

/-- 42_sensor.md R166's example and corner cases. -/
theorem test_snsCoeff :
    see (fun t => t.sns.coef.toList.map sx) .snsCoeff (operands 512 0 0) =
      some [-2048, -1024, -512, -256, 256, 512, 1024, 2048] ∧
    see (fun t => t.sns.coef.toList.map sx) .snsCoeff (operands (enc (-512)) 0 0) =
      some [2048, -1024, 512, -256, 256, -512, 1024, -2048] ∧
    see (fun t => t.sns.coef.toList.map sx) .snsCoeff (operands 300 0 0) =
      some [-411, -351, -300, -256, 256, 300, 351, 411] := by decide

/-- 42_sensor.md R168's example, and R170 (every channel at zero range). -/
theorem test_snsPos :
    see (fun t => (outcome t, t.iface.r0, t.sns.norm.toList)) .snsPos
      (calibrated [255, 255, 255, 255, 0, 0, 0, 0]) =
      some ((-979200, 0, 0), 0xFFF10F00, [255, 255, 255, 255, 0, 0, 0, 0]) ∧
    see (fun t => (outcome t, t.sns.norm.toList)) .snsPos
      { State.reset with env := { Env.reset with samples := [10, 20, 30, 40, 50, 60, 70, 80] } } =
      some ((0, 0, 0), List.replicate 8 128) := by decide

/-- 42_sensor.md R169's examples: 127 between the bounds, 255 at the upper bound, 0 below the lower bound. -/
theorem test_snsPos_normalizes :
    normalize 40 240 200 140 = 127 ∧ normalize 80 181 101 181 = 255 ∧ normalize 30 130 100 20 = 0 := by decide

/-- 42_sensor.md R175's example. -/
theorem test_snsOnfloor :
    see outcome .snsOnfloor (banded 0 255 0 255) = some (1, 0, 0) ∧
    see outcome .snsOnfloor (banded 15 255 0 255) = some (0, 0, 0) ∧
    see outcome .snsOnfloor (banded 10 80 0 255) = some (1, 0, 0) := by decide

/-- 42_sensor.md R176's example. -/
theorem test_snsOnline :
    see outcome .snsOnline (banded 0 255 0 79) = some (1, 0, 0) ∧
    see outcome .snsOnline (banded 0 255 0 80) = some (0, 0, 0) ∧
    see outcome .snsOnline (banded 0 255 0 255) = some (0, 0, 0) := by decide

/-! ### The host's side -/

/-- V-REG-1 to V-REG-6. -/
theorem test_reads_at_reset :
    State.reset.readReg 0x08 = 0x20100808 ∧ State.reset.readReg 0x13 = 0x10 ∧ State.reset.readReg 0x14 = 0xFFFF8001 ∧
    State.reset.readReg 0x15 = 0x7FFF ∧ State.reset.readReg 0x21 = 0x40 ∧ State.reset.readReg 0x23 = 0xFF00 ∧
    State.reset.readReg 0x25 = 4 ∧ State.reset.readReg 0x50 = 0xFF ∧ State.reset.readReg 0x48 = 0 ∧
    State.reset.readReg 0xB0 = 0 := by decide

/-- V-REG-7, V-REG-8, V-REG-10, V-REG-12. -/
theorem test_writes :
    seeTxn (fun t => t.readReg 0x21) (.wr 0x21 0x1FF) State.reset = some 0xFF ∧
    seeTxn (fun t => t.readReg 0x23) (.wr 0x23 0x12345678) State.reset = some 0x5678 ∧
    seeTxn (fun t => (t.readReg 0x06, t.readReg 0x07, t.readReg 0x01)) (.wr 0x06 0x80000000) State.reset =
      some (0x80000001, 1, 0x400) ∧
    seeTxn (fun t => t.readReg 0x13) (.wr 0x13 0x108) State.reset = some 0x10 := by decide

/-- V-ENC-4: an illegal word whose low byte is `FX.MUL`'s. -/
theorem test_illegal :
    seeTxn (fun t => t.readReg 0x01) (.wr 0x00 0x110) State.reset = some 0x803 := by decide

/-- A word placed where the next step takes it runs as the first command after reset. -/
theorem test_withFetchWord :
    (match step (State.reset.withFetchWord 32 0x33) with
      | .next t => (t.iface.r0, t.env.pending)
      | .fault _ => (0, [])
      | .refused _ => (0, [])) = (1, []) := by decide

/-- A program's lines wait as transactions, each bracket with its own command (30_encoding.md R88). -/
theorem test_load :
    (State.reset.load [.pseudo (.snsCoeff (.dec 512)), .cmd .snsPos [1, 2, 3, 4, 5, 6, 7, 8]]).env =
      { pending := [.txn (.wr 0x02 512), .txn (.wr 0x00 0x34), .sampled (.wr 0x00 0x35) [1, 2, 3, 4, 5, 6, 7, 8]],
        samples := [], sampleNo := 0, trace := [] } := by decide

/-- A bracketed command takes its own samples (42_sensor.md R152's) and leaves the others as they were. -/
theorem test_bracket :
    (match step (State.load (calibrated [9, 9]) [.cmd .snsRead [10, 20, 30, 40, 50, 60, 70, 80]]) with
      | .next t => (t.sns.raw.toList, t.env.samples)
      | .fault _ => ([], [])
      | .refused _ => ([], [])) = ([10, 20, 30, 40, 50, 60, 70, 80], [9, 9]) := by decide

/-! ### Witnesses: states and operands that meet the hypotheses of each statement -/

/-- Reset with one host operation pending. -/
def waiting (ops : List HostOp) : State := { State.reset with env := { Env.reset with pending := ops } }

/-- A command completes, so a statement about its next state speaks of a state. -/
theorem completes (i : Instr) : ∃ t, exec i State.reset = .next t := by
  cases i <;> exact ⟨_, rfl⟩

theorem witness_StepRunsTheDecodedCommand :
    (waiting [.txn (.wr 0x00 0x37)]).env.pending = .txn (.wr 0x00 0x37) :: [] ∧ decode 0x37 = .ok .snsOnline ∧
    State.reset.env.pending = [] := by decide

theorem witness_IllegalWordSetsOnlyCodeAndFlag :
    ∃ p q : Word, (∀ i : Instr, encode i ≠ p) ∧ (∀ i : Instr, encode i ≠ q) :=
  ⟨0x38, 0x110, fun i => by cases i <;> decide, fun i => by cases i <;> decide⟩

/-- A read-only location, the numbers around the mapped ones, and `CMD`. -/
theorem witness_ReadOnlyAndUnmappedLocationsIgnoreTheHost :
    ((0x05 : Byte) ≠ 0x00 ∧ ¬writable 0x05) ∧ ((0x25 : Byte) ≠ 0x00 ∧ ¬writable 0x25) ∧
    ((0xFF : Byte) ≠ 0x00 ∧ ¬writable 0xFF) ∧ ¬mapped 0x09 ∧ ¬mapped 0x48 ∧ ¬mapped 0xB0 := by
  unfold writable mapped
  decide

theorem witness_OnlyAStatusWriteClearsStickyFlags :
    ∃ (x : Txn) (s t : State), afterTxn x s = .next t ∧ (∀ p, x ≠ .wr 0x01 p) ∧ s.iface.status.sat = true :=
  ⟨.wr 0x02 7, { State.reset with iface := { Iface.reset with status := { Iface.reset.status with sat := true } } }, _,
    rfl, fun p h => absurd (Txn.wr.inj h).1 (by decide), rfl⟩

theorem witness_PowerCycleResetsTheBlock : (waiting [.powerCycle]).env.pending = .powerCycle :: [] := rfl

theorem witness_FeedPassesTheResultToTheFirstOperand :
    (waiting (Pseudo.feed.expand ++ [])).env.pending = Pseudo.feed.expand ++ [] := rfl

/-- A bracketed command alone, and behind a plain write of a sampling command's word. -/
theorem witness_BracketSuppliesItsCommandAlone :
    Instr.snsPos ∈ [Instr.snsRead, .snsCal, .snsPos] ∧
    (waiting (Line.expand (.cmd .snsPos (Vector.replicate 8 7).toList) ++ [])).env.pending =
      [.sampled (.wr 0x00 0x35) [7, 7, 7, 7, 7, 7, 7, 7]] ∧
    (State.reset.load [.wr (.name .cmd) (.hex 0x31), .cmd .snsPos [1, 2, 3, 4, 5, 6, 7, 8]]).env.pending =
      Line.expand (.wr (.name .cmd) (.hex (encode .snsRead).toNat)) ++
        (Line.expand (.cmd .snsPos (#v[1, 2, 3, 4, 5, 6, 7, 8] : Vector Byte 8).toList) ++ []) := by decide

/-- Both kinds of command of the statements over all commands: a member of each list, and its next state. -/
theorem witness_rules_over_all_commands :
    (∃ s t, exec .fxMac s = .next t) ∧ (∃ s t, exec .pidSetout s = .next t) ∧ (∃ s t, exec .snsOnline s = .next t) ∧
    (∃ s t, exec .snsRead s = .next t) :=
  ⟨⟨_, completes _⟩, ⟨_, completes _⟩, ⟨_, completes _⟩, ⟨_, completes _⟩⟩

/-- Cases of `CompletionCodesByCommand` and `SaturationCounterOnlyRises`: each code occurs, and an event at a full counter. -/
theorem witness_CompletionCodesByCommand :
    see (fun t => t.iface.status.code) .fxDiv (operands 5 0 0) = some .divzero ∧
    see (fun t => t.iface.status.code) .pidSetout (operands 0 0 0) = some .cfgerr ∧
    see (fun t => (t.iface.satcnt.toNat, t.iface.status.sat)) .fxMul
      { State.reset with iface := { Iface.reset with a0 := 0x7FFFFFFF, a1 := 0x7FFFFFFF, satcnt := 0xFFFFFFFF } } =
      some (2 ^ 32 - 1, true) := by decide

theorem witness_FxCommandsDependOnTheirOperandsAlone :
    ∃ s s' t t' : State, s.iface.a0 = s'.iface.a0 ∧ s.iface.a1 = s'.iface.a1 ∧ s.iface.acc = s'.iface.acc ∧
      s.iface.satcnt = s'.iface.satcnt ∧ s.pid ≠ s'.pid ∧ exec .fxMul s = .next t ∧ exec .fxMul s' = .next t' :=
  ⟨State.reset, running 1 1 1 0 0 0 0 0, _, _, rfl, rfl, rfl, rfl, by decide, rfl, rfl⟩

theorem witness_PidStep :
    (running 512 64 256 0 0 10 100 10).iface.a1 = (running 512 64 256 0 0 10 100 10).pid.lastTime ∧
    (running 512 64 256 0 0 0 100 10).iface.a1 ≠ (running 512 64 256 0 0 0 100 10).pid.lastTime ∧
    sx State.reset.pid.outMin ≤ sx State.reset.pid.outMax ∧ State.reset.pid.ki = 0 := by decide

theorem witness_IntegralWindupRecoversInBoundedSteps :
    let s := running 256 256 256 0 50 5 0 5
    (0 ≤ sx s.pid.kp ∧ 0 < sx s.pid.ki ∧ 0 ≤ sx s.pid.kd ∧ 0 ≤ sx s.pid.iacc ∧ sx s.pid.iacc ≤ 1073741823 ∧
      sx s.pid.outMin ≤ 0 ∧ 0 ≤ sx s.pid.outMax) ∧
    sx s.pid.iacc ≤ (1 : Nat) * ((50 : Int) * (1 : Nat)) ∧ -50 ≤ sx s.pid.lastErr := by decide

theorem witness_SustainedLargestErrorPinsTheOutput :
    let s := running 256 256 256 0 0 0 0 0
    sx s.pid.kp = 256 ∧ sx s.pid.ki = 256 ∧ sx s.pid.kd = 256 ∧ 0 ≤ sx s.pid.iacc ∧ sx s.pid.outMin = -32767 ∧
      sx s.pid.outMax = 32767 := by decide

theorem witness_ReconfigurationLeavesAStaleOutput :
    Instr.pidSetout ∈ [Instr.pidCfg, .pidCfgstd, .pidSetout] ∧
      see (fun t => sx t.pid.lastOut) .pidCfg (running 1 1 1 0 0 10 100 10) = some 460 := by decide

/-- Both gates of the calibration pass are met by the states of `test_snsCal_valid` and `test_snsCal_invalid`; the three named
cases of `SNS.POL`. -/
theorem witness_SnsPolDecidesTheNamedCases :
    (∀ b : Fin 16, 8 ≤ b.val → (counted [0, 0, 0, 0, 0, 0, 0, 9]).sns.hist[b] = 0) ∧
    (∀ b : Fin 16, b.val < 8 → (counted [0, 0, 0, 0, 0, 0, 0, 0, 9]).sns.hist[b] = 0) ∧
    (counted [0, 0, 0, 0, 0, 0, 0, 0, 9]).sns.hist[(8 : Fin 16)] ≠ 0 ∧
    (∀ b c : Fin 16, (counted (List.replicate 16 3)).sns.hist[b] = (counted (List.replicate 16 3)).sns.hist[c]) := by decide

theorem witness_NormalizationIsFloorOverTheRange :
    let s := calibrated (List.replicate 8 255)
    ∀ i : Fin 8, s.sns.range[i] ≠ 0 ∧ s.sns.min[i].toNat < s.sns.max[i].toNat ∧
      s.sns.range[i].toNat = s.sns.max[i].toNat - s.sns.min[i].toNat ∧ s.sns.max[i].toNat ≤ (s.incoming i).toNat := by
  decide

/-- A symmetric pattern, and a pattern beside its mirror image. -/
theorem witness_MirroredPatternNegatesThePosition :
    Antisymmetric (calibrated []).sns ∧
    (∀ i j : Fin 8, i.val + j.val = 7 →
      normalized (calibrated [10, 50, 200, 255, 255, 200, 50, 10]) i =
        normalized (calibrated [10, 50, 200, 255, 255, 200, 50, 10]) j) ∧
    ∀ i j : Fin 8, i.val + j.val = 7 →
      normalized (calibrated [8, 7, 6, 5, 4, 3, 2, 1]) i = normalized (calibrated [1, 2, 3, 4, 5, 6, 7, 8]) j := by
  unfold Antisymmetric
  decide

theorem witness_PositionIsBoundedByTheCoefficients :
    ∑ i : Fin 8, |sx (calibrated []).sns.coef[i]| ≤ 7680 := by decide

theorem witness_CalibrationBoundsAreTheExtremeSamples : ∃ r, exec .snsReset State.reset = .next r := completes _

theorem witness_EveryStepKeepsTheInvariant :
    Inv (operands 1 2 3) ∧ ∃ t, step (operands 1 2 3) = .next t := by
  refine ⟨?_, _, rfl⟩
  constructor
  all_goals first
    | decide
    | (unfold Within; decide)
    | (unfold ChannelOk; decide)
    | (unfold OutputRangeOk; decide)
    | (unfold Antisymmetric; decide)

theorem witness_ReachableStatesMeetTheInvariant : ∃ t, Sys2Proof.core.run 1 (waiting [.txn (.wr 0x02 7)]) = .next t := ⟨_, rfl⟩

end Sys2Proof.Tests
end

section
/-! PROOFS. Rules over all commands (00_scope.md): every command completes, and all it does to the saturation counter and its
flag is record events. -/

namespace Sys2Proof.Safety

open Sys2Proof.Machine

/-- From `s` to `t`, some number of saturation events were recorded: the counter and its flag moved in no other way. -/
def RecordsEvents (s t : State) : Prop := ∃ k, Recorded s t k

variable {s t u : State}

theorem RecordsEvents.of_eq (hcnt : t.iface.satcnt = s.iface.satcnt) (hsat : t.iface.status.sat = s.iface.status.sat) :
    RecordsEvents s t :=
  ⟨0, .zero hcnt hsat⟩

theorem RecordsEvents.refl (s : State) : RecordsEvents s s := .of_eq rfl rfl

theorem RecordsEvents.trans (hst : RecordsEvents s t) (htu : RecordsEvents t u) : RecordsEvents s u := by
  obtain ⟨j, hj⟩ := hst
  obtain ⟨k, hk⟩ := htu
  exact ⟨j + k, hj.trans hk⟩

/-- Recording never lowers the counter (10_state.md R27). -/
theorem RecordsEvents.satcnt_le (h : RecordsEvents s t) : s.iface.satcnt.toNat ≤ t.iface.satcnt.toNat := by
  obtain ⟨k, hcnt, -⟩ := h
  have := s.iface.satcnt.isLt
  omega

/-- A counter that moved saw an event, and an event raises the flag (00_scope.md R12). -/
theorem RecordsEvents.sat_of_satcnt_ne (h : RecordsEvents s t) (hne : s.iface.satcnt ≠ t.iface.satcnt) :
    t.iface.status.sat = true := by
  obtain ⟨k, hcnt, hsat⟩ := h
  have hk : 0 < k := by
    by_contra h0
    have := s.iface.satcnt.isLt
    exact hne (BitVec.eq_of_toNat_eq (by omega))
  simp [hsat, hk]

/-- A flag that moved saw an event, and an event moves the counter unless it stands at its top (10_state.md R27). -/
theorem RecordsEvents.satcnt_ne_or_full (h : RecordsEvents s t)
    (hne : t.iface.status.sat ≠ s.iface.status.sat) :
    s.iface.satcnt ≠ t.iface.satcnt ∨ s.iface.satcnt.toNat = 2 ^ 32 - 1 := by
  obtain ⟨k, hcnt, hsat⟩ := h
  have hk : 0 < k := by
    by_contra h0
    exact hne (by simp [hsat, h0])
  refine or_iff_not_imp_right.mpr fun hfull heq => ?_
  rw [← heq] at hcnt
  have := s.iface.satcnt.isLt
  omega

/-! ### Each operation of a command, after events -/

theorem RecordsEvents.setR0 (h : RecordsEvents s t) (v : Word) : RecordsEvents s (t.setR0 v) :=
  h.trans (.of_eq rfl rfl)

theorem RecordsEvents.setAcc (h : RecordsEvents s t) (v : Word) : RecordsEvents s (t.setAcc v) :=
  h.trans (.of_eq rfl rfl)

theorem RecordsEvents.setPid (h : RecordsEvents s t) (x : Pid) : RecordsEvents s (t.setPid x) :=
  h.trans (.of_eq rfl rfl)

theorem RecordsEvents.setSns (h : RecordsEvents s t) (x : Sns) : RecordsEvents s (t.setSns x) :=
  h.trans (.of_eq rfl rfl)

theorem RecordsEvents.setPhase (h : RecordsEvents s t) (p : Phase) : RecordsEvents s (t.setPhase p) :=
  h.trans (.of_eq rfl rfl)

theorem RecordsEvents.setDz (h : RecordsEvents s t) : RecordsEvents s t.setDz :=
  h.trans (.of_eq rfl rfl)

theorem RecordsEvents.complete (h : RecordsEvents s t) (c : Code) : RecordsEvents s (t.complete c) :=
  h.trans (.of_eq rfl rfl)

theorem RecordsEvents.configError (h : RecordsEvents s t) : RecordsEvents s t.configError :=
  h.trans (.of_eq rfl rfl)

theorem RecordsEvents.noteSat (h : RecordsEvents s t) (lo hi v : Int) : RecordsEvents s (t.noteSat lo hi v) :=
  h.trans ⟨_, recorded_noteSat t lo hi v⟩

theorem RecordsEvents.readAll (h : RecordsEvents s t) : RecordsEvents s t.readAll :=
  h.trans (.of_eq (by simp) (by simp))

theorem RecordsEvents.termP (h : RecordsEvents s t) (e : Int) : RecordsEvents s (termP e t).2 := by
  obtain ⟨-, -, -, -, -, hrec⟩ := termP_spec e t
  exact h.trans ⟨_, hrec⟩

theorem RecordsEvents.termD (h : RecordsEvents s t) (e dt : Int) : RecordsEvents s (termD e dt t).2 := by
  obtain ⟨-, -, -, -, -, hrec⟩ := termD_spec e dt t
  exact h.trans ⟨_, hrec⟩

theorem RecordsEvents.termI (h : RecordsEvents s t) (e dt : Int) : RecordsEvents s (termI e dt t).2 := by
  obtain ⟨-, -, -, -, -, hrec⟩ := termI_spec e dt t
  exact h.trans ⟨_, hrec⟩

theorem RecordsEvents.finishStep (h : RecordsEvents s t) (e : Int) (now : BitVec 32) (sum : Int) :
    RecordsEvents s (t.finishStep e now sum) := by
  obtain ⟨-, -, -, -, -, -, hrec⟩ := finishStep_spec t e sum now
  exact h.trans ⟨_, hrec⟩

theorem RecordsEvents.applyGains (h : RecordsEvents s t) (kp ki kd : Int) (oob : Bool) :
    RecordsEvents s (t.applyGains kp ki kd oob) := by
  obtain ⟨-, -, -, -, hrec, -⟩ := applyGains_spec t kp ki kd oob
  exact h.trans ⟨0, hrec⟩

theorem RecordsEvents.countSamples (h : RecordsEvents s t) : RecordsEvents s t.countSamples := by
  obtain ⟨-, -, -, -, hrec⟩ := countSamples_spec t
  exact h.trans ⟨_, hrec⟩

theorem RecordsEvents.normAll (h : RecordsEvents s t) : RecordsEvents s t.normAll := by
  obtain ⟨-, -, -, -, hrec⟩ := normAll_spec t
  exact h.trans ⟨_, hrec⟩

theorem RecordsEvents.coeffLoop (h : RecordsEvents s t) (wf : Int) :
    RecordsEvents s ((List.finRange Config.pairs).foldl (coeffPair wf) (Config.one, t)).2 := by
  obtain ⟨-, -, -, -, hrec⟩ := coeffLoop_spec wf t
  exact h.trans ⟨_, hrec⟩

end Sys2Proof.Safety

namespace Sys2Proof.Machine

open Sys2Proof.Safety

variable (s : State)

/-- `PID.STEP` as one composition: in the same tick the last output, otherwise the saturated error and elapsed time, the three
terms and the output (41_pid.md R125 to R131). -/
theorem execPidStep_eq :
    execPidStep s =
      if (s.iface.a1 - s.pid.lastTime).toNat = 0 then .next ((s.setR0 s.pid.lastOut).complete .ok)
      else
        let e := limit32 (sx s.iface.a0)
        let dt := limit 0 65535 (s.iface.a1 - s.pid.lastTime).toNat
        let p := termP e
          ((s.noteSat (-2147483647) 2147483647 (sx s.iface.a0)).noteSat 0 65535 (s.iface.a1 - s.pid.lastTime).toNat)
        let d := termD e dt p.2
        let i := termI e dt d.2
        .next (i.2.finishStep e s.iface.a1 (p.1 + i.1 + d.1)) := by
  simp only [execPidStep, satW_eq, sat_eq, dtMax_eq]
  rfl

/-- A step in the same tick records nothing; a computing one records what its operand, the elapsed time, the three terms and
the output record. -/
theorem execPidStep_recordsEvents : ∃ t, execPidStep s = .next t ∧ RecordsEvents s t := by
  rw [execPidStep_eq]
  split
  · exact ⟨_, rfl, ((RecordsEvents.refl s).setR0 _).complete _⟩
  · exact ⟨_, rfl,
      ((((((RecordsEvents.refl s).noteSat _ _ _).noteSat _ _ _).termP _).termD _ _).termI _ _).finishStep _ _ _⟩

/-- A calibration pass records the lost increments, and only where it counts its samples (42_sensor.md R154, R157). -/
theorem execSnsCal_recordsEvents : ∃ t, execSnsCal s = .next t ∧ RecordsEvents s t := by
  have hwiden : RecordsEvents s (s.readAll.setSns s.readAll.sns.widen) := (RecordsEvents.refl s).readAll.setSns _
  refine ⟨_, rfl, RecordsEvents.complete (.setR0 (.setSns ?_ _) _) _⟩
  split
  · exact hwiden.countSamples
  · exact hwiden

/-- Every command completes, and all it does to the saturation counter and its flag is record events (00_scope.md R12,
70_reset_and_hazards.md R223). -/
theorem exec_recordsEvents (i : Instr) : ∃ t, exec i s = .next t ∧ RecordsEvents s t := by
  have h : RecordsEvents s s := .refl s
  cases i with
  | fxMul => exact ⟨_, rfl, ((h.noteSat _ _ _).setR0 _).complete _⟩
  | fxDiv =>
    by_cases h0 : sx s.iface.a1 = 0
    · exact ⟨_, if_pos h0, (h.setR0 _).setDz.complete _⟩
    · exact ⟨_, if_neg h0, ((h.noteSat _ _ _).setR0 _).complete _⟩
  | fxSat =>
    by_cases hbits : zx s.iface.a1 < 2 ∨ Config.W < zx s.iface.a1
    · exact ⟨_, if_pos hbits, h.configError⟩
    · exact ⟨_, if_neg hbits, ((h.noteSat _ _ _).setR0 _).complete _⟩
  | fxMac => exact ⟨_, rfl, (((h.noteSat _ _ _).setAcc _).setR0 _).complete _⟩
  | pidCfg | pidCfgstd => exact ⟨_, rfl, h.applyGains _ _ _ _⟩
  | pidSetout =>
    by_cases hlegal : outLegal (zx s.iface.a0) (zx s.iface.a1) = true
    · exact ⟨_, if_pos hlegal, (h.setPid _).complete _⟩
    · exact ⟨_, if_neg hlegal, h.configError⟩
  | pidStep => exact execPidStep_recordsEvents s
  | snsReset => exact ⟨_, rfl, (h.setSns _).complete _⟩
  | snsRead => exact ⟨_, rfl, h.readAll.complete _⟩
  | snsCal => exact execSnsCal_recordsEvents s
  | snsPol => exact ⟨_, execSnsPol_eq s, ((h.setSns _).setR0 _).complete _⟩
  | snsCoeff => exact ⟨_, execSnsCoeff_eq s, (((h.noteSat _ _ _).coeffLoop _).setPhase _).complete _⟩
  | snsPos => exact ⟨_, execSnsPos_eq s, (((h.readAll.normAll.noteSat _ _ _).setR0 _).setPhase _).complete _⟩
  | snsOnfloor | snsOnline => exact ⟨_, rfl, (h.setR0 _).complete _⟩

/-- Settles O14: from `s` to `t` a command only records events, and the three parts hold of any number of events. -/
theorem saturationCounterOnlyRises : Obligations.SaturationCounterOnlyRises := by
  intro i s t h
  obtain ⟨u, hu, hrec⟩ := exec_recordsEvents s i
  obtain rfl : u = t := Host.Outcome.next.inj (hu.symm.trans h)
  exact ⟨hrec.satcnt_le, hrec.sat_of_satcnt_ne, hrec.satcnt_ne_or_full⟩

end Sys2Proof.Machine
end

section
/-! PROOFS. The block's state (10_state.md): what a command makes of the accumulator, the completion status, each unit and the
ports, said once per command; the rules over all commands and host operations that follow; the invariant of R40. -/

namespace Sys2Proof.Safety

open Sys2Proof.Machine

/-! ### What a command makes of each part of the state -/

/-- What command `i` makes of `ACC`: only `FX.MAC` writes it, a saturated value (10_state.md R24). -/
def AccAfter (i : Instr) (a b : Word) : Prop :=
  match i with
  | .fxMac => ∃ v, b = enc (limit32 v)
  | _ => b = a

/-- What command `i` makes of the PID unit: clamped gains and cleared transients, a legal output range, the transients of one
step (41_pid.md R121, R124, R130, R131); a failed or same-tick command keeps it. -/
def PidAfter (i : Instr) (x y : Pid) : Prop :=
  match i with
  | .pidCfg | .pidCfgstd =>
    ∃ kp ki kd,
      y = { x with kp := enc (gainClamp kp), ki := enc (gainClamp ki), kd := enc (gainClamp kd), lastErr := 0, iacc := 0 }
  | .pidSetout =>
    y = x ∨ ∃ bits uns, outLegal bits uns = true ∧
      y =
        { x with
          outBits := BitVec.ofNat 6 bits, outUns := uns == 1, outMin := enc (outBounds bits (uns == 1)).1,
          outMax := enc (outBounds bits (uns == 1)).2 }
  | .pidStep =>
    y = x ∨ ∃ e iacc now out, (iacc = x.iacc ∨ ∃ v, iacc = enc (limit (-1073741823) 1073741823 v)) ∧
      y = { x with lastErr := enc (limit32 e), iacc := iacc, lastTime := now, lastOut := out }
  | _ => y = x

/-- What command `i` makes of the sensor unit: calibration discarded, bounds widened, mirrored coefficients, the lifecycle mark,
or registers the invariant does not speak of (42_sensor.md R152 to R169). -/
def SnsAfter (i : Instr) (x y : Sns) : Prop :=
  match i with
  | .snsReset => y = x.discard
  | .snsRead => ∃ r, y = { x with raw := r, chsel := 7 }
  | .snsCal =>
    ∃ r h v, y = { ({ x with raw := r, chsel := 7 } : Sns).widen with hist := h, valid := v, phase := .calibrating }
  | .snsPol => ∃ p, y = { x with polarity := p }
  | .snsCoeff =>
    ∃ wf v, (∀ k : Fin 4,
      v[(⟨3 - k.val, by omega⟩ : Fin 8)] = enc (-coefficient wf k) ∧
      v[(⟨4 + k.val, by omega⟩ : Fin 8)] = enc (coefficient wf k)) ∧
      y = { x with coef := v, phase := .calibrated }
  | .snsPos => ∃ r n, y = { x with raw := r, chsel := 7, norm := n, phase := .reading }
  | _ => y = x

/-- What command `i` does to the accumulator, the error flags, each unit and the ports (10_state.md R41, 20_memory.md R66). -/
structure CommandEffect (i : Instr) (s t : State) : Prop where
  acc       : AccAfter i s.iface.acc t.iface.acc
  completed : ∃ c dz ce, Completed s t c dz ce false
  pid       : PidAfter i s.pid t.pid
  sns       : SnsAfter i s.sns t.sns
  env       : t.env = bif i.samples then afterSamples s else s.env

variable {i : Instr} {s t u : State}

theorem OnlyRecords.acc (h : OnlyRecords s t) : t.iface.acc = s.iface.acc := by rw [h]

theorem onlyRecords_readAll (s : State) : OnlyRecords s s.readAll := by simp [OnlyRecords]

/-- A command that first only records events, up to `u`, and then completes with `c`. -/
theorem CommandEffect.of_onlyRecords {c : Code} (h : OnlyRecords s u)
    (hstatus : t.iface.status = { u.iface.status with code := c }) (hacc : AccAfter i u.iface.acc t.iface.acc)
    (hpid : PidAfter i s.pid t.pid) (hsns : SnsAfter i s.sns t.sns)
    (henv : t.env = bif i.samples then afterSamples s else s.env) : CommandEffect i s t where
  acc := h.acc ▸ hacc
  completed := ⟨c, false, false, completed_of_onlyRecords h hstatus⟩
  pid := hpid
  sns := hsns
  env := henv

/-- A command that ends with a configuration error keeps both units (60_exceptions.md R192). -/
theorem CommandEffect.of_configError (hacc : AccAfter i s.iface.acc s.iface.acc) (hpid : PidAfter i s.pid s.pid)
    (hsns : SnsAfter i s.sns s.sns) (henv : s.env = bif i.samples then afterSamples s else s.env) :
    CommandEffect i s s.configError where
  acc := hacc
  completed := ⟨.cfgerr, false, true, by simp [Completed]⟩
  pid := hpid
  sns := hsns
  env := henv

/-- From `s` to `t` a computing `PID.STEP` recorded events and accumulated at most once into `IACC`, before its output
(41_pid.md R128 to R130). -/
structure StepFrame (s t : State) : Prop where
  records : OnlyRecords s t
  pid     : ∃ iacc, (iacc = s.pid.iacc ∨ ∃ v, iacc = enc (limit (-1073741823) 1073741823 v)) ∧
              t.pid = { s.pid with iacc := iacc }
  sns     : t.sns = s.sns
  env     : t.env = s.env

theorem StepFrame.refl (s : State) : StepFrame s s := ⟨.refl s, ⟨_, .inl rfl, rfl⟩, rfl, rfl⟩

theorem StepFrame.trans (hst : StepFrame s t) (htu : StepFrame t u) : StepFrame s u := by
  obtain ⟨hrec, ⟨a, ha, hpid⟩, hsns, henv⟩ := hst
  obtain ⟨hrec', ⟨b, hb, hpid'⟩, hsns', henv'⟩ := htu
  refine ⟨hrec.trans hrec', ⟨b, ?_, by rw [hpid', hpid]⟩, hsns'.trans hsns, henv'.trans henv⟩
  rw [hpid] at hb
  obtain rfl | hb := hb
  · exact ha
  · exact .inr hb

theorem StepFrame.noteSat (h : StepFrame s t) (lo hi v : Int) : StepFrame s (t.noteSat lo hi v) :=
  h.trans ⟨onlyRecords_noteSat .., ⟨_, .inl rfl, noteSat_pid ..⟩, noteSat_sns .., noteSat_env ..⟩

/-- Only `FX.MAC` writes the accumulator (10_state.md R24). -/
theorem AccAfter.eq_of_ne {a b : Word} (h : AccAfter i a b) (hi : i ≠ .fxMac) : b = a := by
  unfold AccAfter at h
  split at h
  · exact absurd rfl hi
  · exact h

end Sys2Proof.Safety

namespace Sys2Proof.Machine

open Sys2Proof.Safety

variable (s : State)

/-! ### The effect of each command -/

theorem execFxMul_effect : ∃ t, execFxMul s = .next t ∧ CommandEffect .fxMul s t :=
  ⟨_, rfl, .of_onlyRecords (onlyRecords_noteSat s _ _ _) rfl rfl (noteSat_pid ..) (noteSat_sns ..) (noteSat_env ..)⟩

theorem execFxDiv_effect : ∃ t, execFxDiv s = .next t ∧ CommandEffect .fxDiv s t := by
  by_cases h0 : sx s.iface.a1 = 0
  · exact ⟨_, if_pos h0, rfl, ⟨.divzero, true, false, by simp [Completed]⟩, rfl, rfl, rfl⟩
  · exact ⟨_, if_neg h0,
      .of_onlyRecords (onlyRecords_noteSat s _ _ _) rfl rfl (noteSat_pid ..) (noteSat_sns ..) (noteSat_env ..)⟩

theorem execFxSat_effect : ∃ t, execFxSat s = .next t ∧ CommandEffect .fxSat s t := by
  by_cases hbits : zx s.iface.a1 < 2 ∨ Config.W < zx s.iface.a1
  · exact ⟨_, if_pos hbits, .of_configError rfl rfl rfl rfl⟩
  · exact ⟨_, if_neg hbits,
      .of_onlyRecords (onlyRecords_noteSat s _ _ _) rfl rfl (noteSat_pid ..) (noteSat_sns ..) (noteSat_env ..)⟩

theorem execFxMac_effect : ∃ t, execFxMac s = .next t ∧ CommandEffect .fxMac s t :=
  ⟨_, rfl, .of_onlyRecords (onlyRecords_noteSat s _ _ _) rfl ⟨_, rfl⟩ (noteSat_pid ..) (noteSat_sns ..)
    (noteSat_env ..)⟩

/-- New gains are clamped ones for both configuring commands (41_pid.md R122, R123). -/
theorem applyGains_effect (hi : i = .pidCfg ∨ i = .pidCfgstd) (kp ki kd : Int) (oob : Bool) :
    CommandEffect i s (s.applyGains (gainClamp kp) (gainClamp ki) (gainClamp kd) oob) := by
  obtain ⟨hpid, hsns, henv, hframe, -, hcompleted⟩ :=
    applyGains_spec s (gainClamp kp) (gainClamp ki) (gainClamp kd) oob
  have hacc : (s.applyGains (gainClamp kp) (gainClamp ki) (gainClamp kd) oob).iface.acc = s.iface.acc := by rw [hframe]
  obtain rfl | rfl := hi <;> exact ⟨hacc, ⟨_, _, _, hcompleted⟩, ⟨kp, ki, kd, hpid⟩, hsns, henv⟩

theorem execPidSetout_effect : ∃ t, execPidSetout s = .next t ∧ CommandEffect .pidSetout s t := by
  by_cases hlegal : outLegal (zx s.iface.a0) (zx s.iface.a1) = true
  · exact ⟨_, if_pos hlegal, .of_onlyRecords (.refl s) rfl rfl (.inr ⟨_, _, hlegal, rfl⟩) rfl rfl⟩
  · exact ⟨_, if_neg hlegal, .of_configError rfl (.inl rfl) rfl rfl⟩

/-- The three terms, one after the other, only record events, and of the PID unit they write `IACC` alone
(41_pid.md R128 to R130). -/
theorem terms_frame (e dt : Int) : StepFrame s (termI e dt (termD e dt (termP e s).2).2).2 := by
  obtain ⟨-, hrecP, hpidP, hsnsP, henvP, -⟩ := termP_spec e s
  obtain ⟨-, hrecD, hpidD, hsnsD, henvD, -⟩ := termD_spec e dt (termP e s).2
  obtain ⟨-, hrecI, hpidI, hsnsI, henvI, -⟩ := termI_spec e dt (termD e dt (termP e s).2).2
  rw [hpidD, hpidP] at hpidI
  refine ⟨(hrecP.trans hrecD).trans hrecI, ⟨_, ?_, hpidI⟩, hsnsI.trans (hsnsD.trans hsnsP),
    henvI.trans (henvD.trans henvP)⟩
  split
  · exact .inl rfl
  · exact .inr ⟨_, rfl⟩

/-- The output replaces the other transients and ends the step (41_pid.md R131). -/
theorem finishStep_effect {u : State} (h : StepFrame s u) (e sum : Int) (now : BitVec 32) :
    CommandEffect .pidStep s (u.finishStep (limit32 e) now sum) := by
  obtain ⟨hrec, ⟨iacc, hiacc, hpid⟩, hsns, henv⟩ := h
  obtain ⟨hpid', -, hsns', henv', -⟩ := finishStep_spec u (limit32 e) sum now
  rw [hpid] at hpid'
  exact .of_onlyRecords (hrec.trans (onlyRecords_noteSat ..)) rfl rfl (.inr ⟨e, iacc, now, _, hiacc, hpid'⟩)
    (hsns'.trans hsns) (henv'.trans henv)

/-- A step in the same tick writes `R0` alone; a computing one is its saturations, the three terms and the output
(41_pid.md R125 to R131). -/
theorem execPidStep_effect : ∃ t, execPidStep s = .next t ∧ CommandEffect .pidStep s t := by
  rw [execPidStep_eq]
  split
  · exact ⟨_, rfl, .of_onlyRecords (.refl s) rfl rfl (.inl rfl) rfl rfl⟩
  · exact ⟨_, rfl, finishStep_effect s ((((StepFrame.refl s).noteSat _ _ _).noteSat _ _ _).trans (terms_frame ..)) _ _ _⟩

theorem execSnsReset_effect : ∃ t, execSnsReset s = .next t ∧ CommandEffect .snsReset s t :=
  ⟨_, rfl, .of_onlyRecords (.refl s) rfl rfl rfl rfl rfl⟩

theorem execSnsRead_effect : ∃ t, execSnsRead s = .next t ∧ CommandEffect .snsRead s t :=
  ⟨_, rfl, .of_onlyRecords (onlyRecords_readAll s) rfl rfl (readAll_pid s) ⟨_, readAll_sns s⟩ (readAll_env s)⟩

theorem execSnsPol_effect : ∃ t, execSnsPol s = .next t ∧ CommandEffect .snsPol s t := by
  rw [execSnsPol_eq]
  generalize decide (center s.sns.counts < 8) = pol
  exact ⟨_, rfl, .of_onlyRecords (.refl s) rfl rfl rfl ⟨pol, rfl⟩ rfl⟩

/-- The histogram after a pass: fed where the pass is valid, as it was otherwise (42_sensor.md R157). -/
def State.feedHistogram (s : State) (valid : Bool) : State := if valid then s.countSamples else s

/-- Feeding the histogram records events and writes the bucket counts, nothing else (42_sensor.md R157). -/
theorem feedHistogram_spec (valid : Bool) :
    (∃ h, (s.feedHistogram valid).sns = { s.sns with hist := h }) ∧ (s.feedHistogram valid).pid = s.pid ∧
    (s.feedHistogram valid).env = s.env ∧ OnlyRecords s (s.feedHistogram valid) := by
  cases valid with
  | false => exact ⟨⟨_, rfl⟩, rfl, rfl, .refl s⟩
  | true =>
    obtain ⟨⟨h, hsns, -⟩, hpid, henv, hrec, -⟩ := countSamples_spec s
    exact ⟨⟨h, hsns⟩, hpid, henv, hrec⟩

/-- `SNS.CAL` as one composition: the samples read, the bounds widened, the histogram fed on a valid pass. -/
theorem execSnsCal_eq :
    execSnsCal s =
      let w := s.readAll.setSns s.readAll.sns.widen
      let c := w.feedHistogram w.sns.isValid
      .next (((c.setSns { c.sns with valid := w.sns.isValid, phase := .calibrating }).setR0
        (boolWord w.sns.isValid)).complete .ok) := rfl

/-- A pass widens the bounds by the samples just read, and counts them on a valid pass (42_sensor.md R154 to R157). -/
theorem execSnsCal_effect : ∃ t, execSnsCal s = .next t ∧ CommandEffect .snsCal s t := by
  simp only [execSnsCal_eq]
  have hrecw : OnlyRecords s (s.readAll.setSns s.readAll.sns.widen) := (onlyRecords_readAll s).trans rfl
  have hsnsw : (s.readAll.setSns s.readAll.sns.widen).sns =
      ({ s.sns with raw := Vector.ofFn fun i => s.incoming i, chsel := 7 } : Sns).widen := by simp
  have hpidw : (s.readAll.setSns s.readAll.sns.widen).pid = s.pid := by simp
  have henvw : (s.readAll.setSns s.readAll.sns.widen).env = afterSamples s := by simp
  generalize s.readAll.setSns s.readAll.sns.widen = w at *
  obtain ⟨⟨h, hsns⟩, hpid, henv, hrec⟩ := feedHistogram_spec w w.sns.isValid
  generalize w.feedHistogram w.sns.isValid = c at *
  exact ⟨_, rfl, .of_onlyRecords (hrecw.trans hrec) rfl rfl (hpid.trans hpidw)
    ⟨_, h, _, by rw [complete_sns, setR0_sns, setSns_sns, hsns, hsnsw]⟩ (henv.trans henvw)⟩

/-- The four pairs are the mirrored coefficients of the saturated factor (42_sensor.md R166). -/
theorem execSnsCoeff_effect : ∃ t, execSnsCoeff s = .next t ∧ CommandEffect .snsCoeff s t := by
  obtain ⟨⟨v, hsns, hmirror⟩, hpid, henv, hrec, -⟩ :=
    coeffLoop_spec (limit32 (sx s.iface.a0)) (s.noteSat (-2147483647) 2147483647 (sx s.iface.a0))
  refine ⟨_, execSnsCoeff_eq s, .of_onlyRecords ((onlyRecords_noteSat s _ _ _).trans hrec) rfl rfl
    (hpid.trans (noteSat_pid ..)) ⟨_, v, hmirror, ?_⟩ (henv.trans (noteSat_env ..))⟩
  rw [complete_sns, setPhase_sns, hsns, noteSat_sns]

/-- The position is taken from the normalized channels (42_sensor.md R168). -/
theorem execSnsPos_effect : ∃ t, execSnsPos s = .next t ∧ CommandEffect .snsPos s t := by
  rw [execSnsPos_eq]
  obtain ⟨hsns, hpid, henv, hrec, -⟩ := normAll_spec s.readAll
  rw [readAll_sns] at hsns
  rw [readAll_pid] at hpid
  rw [readAll_env] at henv
  generalize s.readAll.normAll = u at *
  exact ⟨_, rfl, .of_onlyRecords (((onlyRecords_readAll s).trans hrec).trans (onlyRecords_noteSat ..)) rfl rfl
    ((noteSat_pid ..).trans hpid)
    ⟨_, _, by rw [complete_sns, setPhase_sns, setR0_sns, noteSat_sns, hsns]⟩ ((noteSat_env ..).trans henv)⟩

theorem execSnsOnfloor_effect : ∃ t, execSnsOnfloor s = .next t ∧ CommandEffect .snsOnfloor s t :=
  ⟨_, rfl, .of_onlyRecords (.refl s) rfl rfl rfl rfl rfl⟩

theorem execSnsOnline_effect : ∃ t, execSnsOnline s = .next t ∧ CommandEffect .snsOnline s t :=
  ⟨_, rfl, .of_onlyRecords (.refl s) rfl rfl rfl rfl rfl⟩

/-- Every command completes, with its effect on the accumulator, the status, each unit and the ports
(70_reset_and_hazards.md R223). -/
theorem exec_effect (i : Instr) : ∃ t, exec i s = .next t ∧ CommandEffect i s t := by
  cases i with
  | fxMul => exact execFxMul_effect s
  | fxDiv => exact execFxDiv_effect s
  | fxSat => exact execFxSat_effect s
  | fxMac => exact execFxMac_effect s
  | pidCfg => exact ⟨_, rfl, applyGains_effect s (.inl rfl) ..⟩
  | pidCfgstd => exact ⟨_, rfl, applyGains_effect s (.inr rfl) ..⟩
  | pidSetout => exact execPidSetout_effect s
  | pidStep => exact execPidStep_effect s
  | snsReset => exact execSnsReset_effect s
  | snsRead => exact execSnsRead_effect s
  | snsCal => exact execSnsCal_effect s
  | snsPol => exact execSnsPol_effect s
  | snsCoeff => exact execSnsCoeff_effect s
  | snsPos => exact execSnsPos_effect s
  | snsOnfloor => exact execSnsOnfloor_effect s
  | snsOnline => exact execSnsOnline_effect s

variable {s}

/-- What `exec` answers has the command's effect. -/
theorem effect_of_exec {i : Instr} {t : State} (h : exec i s = .next t) : CommandEffect i s t := by
  obtain ⟨u, hu, heffect⟩ := exec_effect s i
  obtain rfl : u = t := Host.Outcome.next.inj (hu.symm.trans h)
  exact heffect

end Sys2Proof.Machine
end

section
/-! PROOFS. The rules over all commands that follow from their effects, and which transactions clear a sticky flag
(10_state.md R24, R26, R36, R41). -/

namespace Sys2Proof.Safety

open Sys2Proof.Machine

/-- Every sticky flag that is set in `s` is set in `t` (10_state.md R26). -/
def FlagsKept (s t : State) : Prop :=
  (s.iface.status.dz = true → t.iface.status.dz = true) ∧ (s.iface.status.ce = true → t.iface.status.ce = true) ∧
  (s.iface.status.sat = true → t.iface.status.sat = true) ∧ (s.iface.status.ill = true → t.iface.status.ill = true)

variable {s t : State}

theorem FlagsKept.of_status_eq (h : t.iface.status = s.iface.status) : FlagsKept s t := by
  simp [FlagsKept, h]

/-- A completion sets the error flags it names, recorded events set `SAT`, and neither clears any. -/
theorem FlagsKept.of_completed {c : Code} {dz ce ill : Bool} (h : Completed s t c dz ce ill) (hrec : RecordsEvents s t) :
    FlagsKept s t := by
  obtain ⟨-, hdz, hce, hill⟩ := h
  obtain ⟨k, -, hsat⟩ := hrec
  simp +contextual [FlagsKept, hdz, hce, hill, hsat]

end Sys2Proof.Safety

namespace Sys2Proof.Machine

open Sys2Proof.Safety

variable {s t : State}

theorem exec_flagsKept {i : Instr} (h : exec i s = .next t) : FlagsKept s t := by
  obtain ⟨c, dz, ce, hcompleted⟩ := (effect_of_exec h).completed
  obtain ⟨u, hu, hrec⟩ := exec_recordsEvents s i
  obtain rfl : u = t := Host.Outcome.next.inj (hu.symm.trans h)
  exact .of_completed hcompleted hrec

/-- A host write to a location other than `STATUS` clears no flag: `ACC` may record an event, the others keep the status. -/
theorem writeLoc_flagsKept (s : State) (p : Word) {l : Loc} (hl : l ≠ .status) : FlagsKept s (s.writeLoc l p) := by
  cases l with
  | status => exact absurd rfl hl
  | acc =>
    obtain ⟨-, -, -, -, hiface, hrec⟩ := writeAcc_spec s p
    have hcompleted : Completed s (s.writeAcc p) s.iface.status.code false false false := by
      unfold Completed
      rw [hiface]
      simp
    exact .of_completed hcompleted ⟨_, hrec⟩
  | _ => exact .of_status_eq rfl

/-- `STATUS` is location 1 alone (20_memory.md R62). -/
theorem eq_one_of_ofNumber_status : ∀ n : Byte, Loc.ofNumber n = some .status → n = 0x01 := by
  decide

/-- Settles O9: a write to `STATUS` is the clearing itself; every other transaction is a read, a command, or a write elsewhere,
and none of these clears a flag. -/
theorem onlyAStatusWriteClearsStickyFlags : Obligations.OnlyAStatusWriteClearsStickyFlags := by
  have hloc : Loc.ofNumber 0x01 = some .status := by decide
  refine ⟨fun s p => ⟨s.writeLoc .status p, transact_loc s p hloc (by decide), rfl, rfl, rfl, rfl, rfl⟩, ?_⟩
  intro x s t h hx
  rw [afterTxn_eq] at h
  change FlagsKept s t
  cases x with
  | rd n =>
    obtain rfl := Host.Outcome.next.inj h
    exact .of_status_eq rfl
  | wr n p =>
    obtain ⟨i, -, hw⟩ | hw | ⟨l, hl, -, hw⟩ | hw := transact_wr_cases s n p
    · exact exec_flagsKept (hw.symm.trans h)
    · obtain rfl := Host.Outcome.next.inj (hw.symm.trans h)
      exact .of_completed (c := .illegal) (dz := false) (ce := false) (ill := true) (by simp [Completed]) (.of_eq rfl rfl)
    · obtain rfl := Host.Outcome.next.inj (hw.symm.trans h)
      refine writeLoc_flagsKept s p fun hs => hx p ?_
      rw [eq_one_of_ofNumber_status n (hs ▸ hl)]
    · obtain rfl := Host.Outcome.next.inj (hw.symm.trans h)
      exact .of_status_eq rfl

/-- Settles O13: each command's effect leaves the other units as they were. -/
theorem unitsWriteOnlyTheirOwnState : Obligations.UnitsWriteOnlyTheirOwnState := by
  intro i s t h
  obtain ⟨hacc, -, hpid, hsns, henv⟩ := effect_of_exec h
  refine ⟨fun hi => ?fx, fun hi => ?pid, fun hi => ?sns, hacc.eq_of_ne⟩ <;>
    simp only [List.mem_cons, List.not_mem_nil, or_false] at hi
  case fx => obtain rfl | rfl | rfl | rfl := hi <;> exact ⟨hpid, hsns, henv⟩
  case pid => obtain rfl | rfl | rfl | rfl := hi <;> exact ⟨hsns, henv⟩
  case sns => obtain rfl | rfl | rfl | rfl | rfl | rfl | rfl | rfl := hi <;> exact hpid

/-- Settles O16: the mark stands in the sensor unit, and its new value in the command's effect on that unit. -/
theorem phaseRecordsTheLifecycleCommand : Obligations.PhaseRecordsTheLifecycleCommand := by
  intro i s t h
  have hsns := (effect_of_exec h).sns
  cases i with
  | snsReset => rw [hsns]; rfl
  | snsCal => obtain ⟨r, hist, v, hsns⟩ := hsns; rw [hsns]; rfl
  | snsCoeff => obtain ⟨wf, v, -, hsns⟩ := hsns; rw [hsns]; rfl
  | snsPos => obtain ⟨r, n, hsns⟩ := hsns; rw [hsns]; rfl
  | snsRead => obtain ⟨r, hsns⟩ := hsns; rw [hsns]; rfl
  | snsPol => obtain ⟨p, hsns⟩ := hsns; rw [hsns]; rfl
  | _ => rw [hsns]; rfl

/-- Settles O1: the reset values, register by register; the arrays hold one value in every slot. -/
theorem resetValuesAreTheTabledOnes : Obligations.ResetValuesAreTheTabledOnes := by
  refine ⟨?iface, ?pid, ?range, ?channels, ?hist, ?sns, ?bands⟩ <;> decide

end Sys2Proof.Machine
end

section
/-! PROOFS. The invariant of the block (10_state.md R40): the parts of it that each unit keeps, and its preservation by every
host operation. -/

namespace Sys2Proof.Safety

open Sys2Proof.Machine

/-- The part of R40 about the PID unit: (b), (c) and (d). -/
structure PidInv (x : Pid) : Prop where
  kp       : Within Config.gainMax x.kp
  ki       : Within Config.gainMax x.ki
  kd       : Within Config.gainMax x.kd
  lastErr  : Within Config.fxMax x.lastErr
  iacc     : Within Config.iMax x.iacc
  outRange : OutputRangeOk x

/-- The part of R40 about the sensor unit: (a), (b) and (e). -/
structure SnsInv (x : Sns) : Prop where
  channels      : ∀ i : Fin Config.N, ChannelOk x i
  coef          : ∀ i : Fin Config.N, Within Config.fxMax x.coef[i]
  antisymmetric : Antisymmetric x

/-- A calibrated channel of nonzero range has its bounds strictly in order. -/
theorem ChannelOk.min_lt_max {x : Sns} {i : Fin Config.N} (h : ChannelOk x i) (hrange : x.range[i] ≠ 0) :
    x.min[i].toNat < x.max[i].toNat := by
  obtain ⟨-, -, hzero⟩ | ⟨hle, hdiff⟩ := h
  · exact absurd hzero hrange
  · have hpos : x.range[i].toNat ≠ 0 := fun h0 => hrange (BitVec.eq_of_toNat_eq h0)
    omega

/-- A declared output range holds 0. -/
theorem OutputRangeOk.signs {x : Pid} (h : OutputRangeOk x) : sx x.outMin ≤ 0 ∧ 0 ≤ sx x.outMax := by
  have hpow (n : Nat) : (1 : Int) ≤ 2 ^ n := one_le_pow₀ (by decide)
  unfold OutputRangeOk at h
  split at h
  · obtain ⟨-, -, hmin, hmax⟩ := h
    have := hpow x.outBits.toNat
    omega
  · obtain ⟨-, -, hmax, hmin⟩ := h
    have := hpow (x.outBits.toNat - 1)
    omega

/-- The invariant, unit by unit. -/
theorem inv_iff {s : State} : Inv s ↔ Within Config.fxMax s.iface.acc ∧ PidInv s.pid ∧ SnsInv s.sns := by
  constructor
  · rintro ⟨hchannels, -, hacc, hkp, hki, hkd, hlastErr, hcoef, hiacc, hrange, -, hanti⟩
    exact ⟨hacc, ⟨hkp, hki, hkd, hlastErr, hiacc, hrange⟩, ⟨hchannels, hcoef, hanti⟩⟩
  · rintro ⟨hacc, ⟨hkp, hki, hkd, hlastErr, hiacc, hrange⟩, ⟨hchannels, hcoef, hanti⟩⟩
    exact ⟨hchannels, fun i => (hchannels i).min_lt_max, hacc, hkp, hki, hkd, hlastErr, hcoef, hiacc, hrange,
      hrange.signs, hanti⟩

/-- The invariant speaks of the accumulator and the two units alone. -/
theorem Inv.congr {s t : State} (h : Inv s) (hacc : t.iface.acc = s.iface.acc) (hpid : t.pid = s.pid)
    (hsns : t.sns = s.sns) : Inv t := by
  rw [inv_iff] at *
  rwa [hacc, hpid, hsns]

/-! ### The stored values stay in their bounds -/

theorem within_zero {b : Int} (hb : 0 ≤ b) : Within b 0 := by
  simp only [Within, BitVec.ofNat_eq_ofNat, sx_zero]
  omega

theorem within_enc {b v : Int} (hb : b ≤ 2147483647) (hv : -b ≤ v ∧ v ≤ b) : Within b (enc v) := by
  unfold Within
  rwa [sx_enc (by omega) (by omega)]

theorem within_enc_limit {b : Int} (hb : 0 ≤ b) (hb' : b ≤ 2147483647) (v : Int) : Within b (enc (limit (-b) b v)) :=
  within_enc hb' (limit_bounds v (by omega))

theorem within_enc_limit32 (v : Int) : Within Config.fxMax (enc (limit32 v)) := by
  rw [fxMax_eq]
  exact within_enc_limit (by decide) (by decide) v

theorem within_enc_gainClamp (v : Int) : Within Config.gainMax (enc (gainClamp v)) :=
  within_enc_limit (by decide) (by decide) v

/-- A saturated sum is within the accumulator's bounds (10_state.md R24). -/
theorem AccAfter.within {i : Instr} {a b : Word} (h : AccAfter i a b) (ha : Within Config.fxMax a) :
    Within Config.fxMax b := by
  by_cases hi : i = .fxMac
  · subst hi
    obtain ⟨v, rfl⟩ := h
    exact within_enc_limit32 v
  · rwa [h.eq_of_ne hi]

/-! ### The PID unit -/

theorem outBounds_signed (bits : Nat) : outBounds bits (0 == 1) = (-(2 ^ (bits - 1) - 1), 2 ^ (bits - 1) - 1) := by
  simp [outBounds]

theorem outBounds_unsigned (bits : Nat) : outBounds bits (1 == 1) = (0, 2 ^ bits - 1) := by
  simp [outBounds]

/-- The range `PID.SETOUT` declares for legal operands is one R31 gives (41_pid.md R124). -/
theorem outputRangeOk_of_outLegal {x : Pid} {bits uns : Nat} (hlegal : outLegal bits uns = true)
    (hbits : x.outBits = BitVec.ofNat 6 bits) (huns : x.outUns = (uns == 1))
    (hmin : x.outMin = enc (outBounds bits (uns == 1)).1) (hmax : x.outMax = enc (outBounds bits (uns == 1)).2) :
    OutputRangeOk x := by
  have hread (n : Nat) (hn : n ≤ 31) : (0 : Int) ≤ 2 ^ n - 1 ∧ (2 ^ n - 1 : Int) ≤ 2147483647 := by
    have h1 : (1 : Int) ≤ 2 ^ n := one_le_pow₀ (by decide)
    have h2 : (2 : Int) ^ n ≤ 2 ^ 31 := pow_le_pow_right₀ (by decide) hn
    omega
  have hwidth (h : bits ≤ 32) : x.outBits.toNat = bits := by
    rw [hbits, BitVec.toNat_ofNat, Nat.mod_eq_of_lt (by omega)]
  unfold OutputRangeOk
  obtain ⟨rfl, hlo, hhi⟩ | ⟨rfl, hlo, hhi⟩ := (outLegal_iff bits uns).mp hlegal
  · have := hread (bits - 1) (by omega)
    rw [if_neg (by simp [huns]), hwidth hhi, hmin, hmax, outBounds_signed, sx_enc (by omega) (by omega),
      sx_enc (by omega) (by omega)]
    exact ⟨hlo, hhi, rfl, rfl⟩
  · have := hread bits hhi
    rw [if_pos (by simp [huns]), hwidth (by omega), hmin, hmax, outBounds_unsigned, sx_enc (by omega) (by omega),
      sx_enc (by omega) (by omega)]
    exact ⟨hlo, hhi, rfl, rfl⟩

/-- Every PID command stores clamped values and legal ranges, and the others keep the unit. -/
theorem PidAfter.keeps_inv {i : Instr} {x y : Pid} (h : PidAfter i x y) (hx : PidInv x) : PidInv y := by
  have ⟨hkp, hki, hkd, hlastErr, hiacc, hrange⟩ := hx
  cases i with
  | pidCfg | pidCfgstd =>
    obtain ⟨kp, ki, kd, rfl⟩ := h
    exact ⟨within_enc_gainClamp kp, within_enc_gainClamp ki, within_enc_gainClamp kd, within_zero (by decide),
      within_zero (by decide), hrange⟩
  | pidSetout =>
    obtain rfl | ⟨bits, uns, hlegal, rfl⟩ := h
    · exact hx
    · exact ⟨hkp, hki, hkd, hlastErr, hiacc, outputRangeOk_of_outLegal hlegal rfl rfl rfl rfl⟩
  | pidStep =>
    obtain rfl | ⟨e, iacc, now, out, rfl | ⟨v, rfl⟩, rfl⟩ := h
    · exact hx
    · exact ⟨hkp, hki, hkd, within_enc_limit32 e, hiacc, hrange⟩
    · exact ⟨hkp, hki, hkd, within_enc_limit32 e, within_enc_limit (by decide) (by decide) v, hrange⟩
  | _ => exact h ▸ hx

/-! ### The sensor unit -/

/-- A channel just widened has ordered bounds and the range between them, whatever it held before (42_sensor.md R155). -/
theorem channelOk_widen (x : Sns) (i : Fin Config.N) : ChannelOk x.widen i := by
  obtain ⟨hmin, hmax, hrange⟩ := widen_channel x i
  refine .inr ⟨?_, ?_⟩
  · rw [hmin, hmax]
    omega
  · rw [hrange, hmin, hmax]

theorem coefficient_bounds (wf : Int) (k : Nat) : -2147483647 ≤ coefficient wf k ∧ coefficient wf k ≤ 2147483647 := by
  cases k with
  | zero => simp [coefficient]
  | succ k => exact limit_bounds _ (by decide)

/-- Every channel lies in one of the four mirrored pairs. -/
theorem exists_pair (i : Fin 8) : ∃ k : Fin 4, i = ⟨3 - k.val, by omega⟩ ∨ i = ⟨4 + k.val, by omega⟩ := by
  revert i
  decide

/-- Coefficients written in mirrored pairs are within their bounds and antisymmetric (42_sensor.md R166, R167). -/
theorem snsInv_of_pairs {x : Sns} (hchannels : ∀ i, ChannelOk x i) (c : Fin 4 → Int)
    (hc : ∀ k, -2147483647 ≤ c k ∧ c k ≤ 2147483647)
    (hpairs : ∀ k : Fin 4,
      x.coef[(⟨3 - k.val, by omega⟩ : Fin 8)] = enc (-c k) ∧ x.coef[(⟨4 + k.val, by omega⟩ : Fin 8)] = enc (c k)) :
    SnsInv x := by
  refine ⟨hchannels, fun i => ?_, fun k => ?_⟩
  · obtain ⟨k, rfl | rfl⟩ := exists_pair i
    · have := hc k
      rw [(hpairs k).1, fxMax_eq]
      exact within_enc (by decide) (by omega)
    · rw [(hpairs k).2, fxMax_eq]
      exact within_enc (by decide) (hc k)
  · obtain ⟨hlower, hupper⟩ := hpairs k
    have := hc k
    rw [hlower, hupper, sx_enc (by omega) (by omega), sx_enc (by omega) (by omega)]

/-- Calibration is discarded or widened, the coefficients written in mirrored pairs, and the other commands keep both. -/
theorem SnsAfter.keeps_inv {i : Instr} {x y : Sns} (h : SnsAfter i x y) (hx : SnsInv x) : SnsInv y := by
  have ⟨hchannels, hcoef, hanti⟩ := hx
  cases i with
  | snsReset =>
    obtain rfl := h
    exact ⟨fun i => .inl (by simp [Sns.discard]), hcoef, hanti⟩
  | snsCal =>
    obtain ⟨r, hist, v, rfl⟩ := h
    exact ⟨channelOk_widen _, hcoef, hanti⟩
  | snsCoeff =>
    obtain ⟨wf, v, hpairs, rfl⟩ := h
    exact snsInv_of_pairs hchannels _ (fun k => coefficient_bounds wf k) hpairs
  | snsRead => obtain ⟨r, rfl⟩ := h; exact ⟨hchannels, hcoef, hanti⟩
  | snsPol => obtain ⟨p, rfl⟩ := h; exact ⟨hchannels, hcoef, hanti⟩
  | snsPos => obtain ⟨r, n, rfl⟩ := h; exact ⟨hchannels, hcoef, hanti⟩
  | _ => exact h ▸ hx

end Sys2Proof.Safety

namespace Sys2Proof.Machine

open Sys2Proof.Safety

variable {s : State}

/-! ### Every host operation keeps the invariant -/

theorem exec_keeps_inv {i : Instr} {t : State} (h : Inv s) (ht : exec i s = .next t) : Inv t := by
  obtain ⟨hacc, -, hpid, hsns, -⟩ := effect_of_exec ht
  obtain ⟨hacc', hpid', hsns'⟩ := inv_iff.mp h
  exact inv_iff.mpr ⟨hacc.within hacc', hpid.keeps_inv hpid', hsns.keeps_inv hsns'⟩

/-- A host write keeps the invariant: `ACC` takes a saturated value, no other writable register is one R40 speaks of
(20_memory.md R64). -/
theorem writeLoc_keeps_inv (h : Inv s) (l : Loc) (p : Word) : Inv (s.writeLoc l p) := by
  obtain ⟨hacc, hpid, hchannels, hcoef, hanti⟩ := inv_iff.mp h
  cases l with
  | acc =>
    obtain ⟨hacc', hpid', hsns', -⟩ := writeAcc_spec s p
    refine inv_iff.mpr ⟨?_, hpid' ▸ hpid, hsns' ▸ ⟨hchannels, hcoef, hanti⟩⟩
    rw [State.writeLoc, hacc']
    exact within_enc_limit32 (sx p)
  | snsCfg | snsVthr | snsDthr | snsFloor | snsLine => exact inv_iff.mpr ⟨hacc, hpid, hchannels, hcoef, hanti⟩
  | _ => exact h.congr rfl rfl rfl

theorem transact_keeps_inv (h : Inv s) (x : Txn) : ∃ t, transact x s = .next t ∧ Inv t := by
  cases x with
  | rd n => exact ⟨_, transact_rd s n, h.congr rfl rfl rfl⟩
  | wr n p =>
    obtain ⟨i, -, hw⟩ | hw | ⟨l, -, -, hw⟩ | hw := transact_wr_cases s n p
    · obtain ⟨t, ht, -⟩ := exec_effect s i
      exact ⟨t, hw.trans ht, exec_keeps_inv h ht⟩
    · exact ⟨_, hw, h.congr rfl rfl rfl⟩
    · exact ⟨_, hw, writeLoc_keeps_inv h l p⟩
    · exact ⟨_, hw, h⟩

theorem pidInv_reset : PidInv Pid.reset where
  kp := within_zero (by decide)
  ki := within_zero (by decide)
  kd := within_zero (by decide)
  lastErr := within_zero (by decide)
  iacc := within_zero (by decide)
  outRange := by unfold OutputRangeOk; decide

/-- At reset every slot of an array holds one value, and no channel has seen a pass. -/
theorem snsInv_reset : SnsInv Sns.reset := by
  have hcoef (i : Fin Config.N) : Sns.reset.coef[i] = 0 := Vector.getElem_replicate _
  refine ⟨fun i => .inl ⟨?_, ?_, ?_⟩, fun i => ?_, fun k => ?_⟩
  iterate 3 exact Vector.getElem_replicate _
  · rw [hcoef]
    exact within_zero (by decide)
  · rw [hcoef, hcoef]
    decide

theorem inv_reset : Inv State.reset :=
  inv_iff.mpr ⟨within_zero (by decide), pidInv_reset, snsInv_reset⟩

theorem hostOp_keeps_inv (h : Inv s) (op : HostOp) : ∃ t, hostOp op s = .next t ∧ Inv t := by
  cases op with
  | txn x => exact transact_keeps_inv h x
  | sampled x v =>
    obtain ⟨t, ht, hinv⟩ := transact_keeps_inv (s := s.setSamples v) (h.congr rfl rfl rfl) x
    exact ⟨_, transactWith_next s ht, hinv.congr rfl rfl rfl⟩
  | wrLast n => exact transact_keeps_inv h (.wr n (lastRead s.env.trace))
  | powerCycle => exact ⟨_, rfl, inv_reset.congr rfl rfl rfl⟩

theorem step_keeps_inv (h : Inv s) : ∃ t, step s = .next t ∧ Inv t := by
  cases hp : s.env.pending with
  | nil => exact ⟨s, by simp only [step, hp], h⟩
  | cons op rest =>
    obtain ⟨t, ht, hinv⟩ := hostOp_keeps_inv (s := s.setPending rest) (h.congr rfl rfl rfl) op
    exact ⟨t, by simp only [step, hp, ht], hinv⟩

theorem run_succ_of_step {M : Host.Core} {n : Nat} {s u : M.State} (h : M.step s = .next u) :
    M.run (n + 1) s = M.run n u := by
  rw [Host.Core.run, h]

/-- Any number of steps keep the invariant. -/
theorem run_keeps_inv (n : Nat) {s t : State} (h : Inv s) (ht : Sys2Proof.core.run n s = .next t) : Inv t := by
  induction n generalizing s with
  | zero => exact Host.Outcome.next.inj ht ▸ h
  | succ n ih =>
    obtain ⟨u, hu, hinv⟩ := step_keeps_inv h
    exact ih hinv ((run_succ_of_step (M := Sys2Proof.core) hu).symm.trans ht)

/-- Settles O55, unit by unit. -/
theorem invariantHoldsAtReset : Obligations.InvariantHoldsAtReset := inv_reset

/-- Settles O56: an idle step holds the state, and each host operation keeps the invariant. -/
theorem everyStepKeepsTheInvariant : Obligations.EveryStepKeepsTheInvariant := by
  intro s t h ht
  obtain ⟨u, hu, hinv⟩ := step_keeps_inv h
  exact Host.Outcome.next.inj (hu.symm.trans ht) ▸ hinv

/-- Settles O57: the invariant holds at reset, whatever is pending and supplied, and every step of the run keeps it. -/
theorem reachableStatesMeetTheInvariant : Obligations.ReachableStatesMeetTheInvariant :=
  fun _ _ n _ => run_keeps_inv n (inv_reset.congr rfl rfl rfl)

end Sys2Proof.Machine
end

section
/-! PROOFS. The register space (20_memory.md R60 to R65): the numbers of the register map, what a read shows, what a host write
stores, and the command a write to `CMD` runs. -/

namespace Sys2Proof

/-! ### The numbers of the register map (20_memory.md R62) -/

/-- The number of a location is read back as that location, in the array windows slot by slot. -/
@[simp] theorem ofNumber_number (l : Loc) : Loc.ofNumber l.number = some l := by
  cases l with
  | snsRaw i | snsMin i | snsMax i | snsRange i | snsNorm i | snsCoef i | snsHist i => revert i; decide
  | _ => rfl

theorem number_of_ofNumber {n : Byte} {l : Loc} (h : Loc.ofNumber n = some l) : l.number = n := by
  have htable : ∀ n : Byte, (Loc.ofNumber n).all fun l => l.number == n := by decide
  simpa [h] using htable n

/-- The mapped numbers are the listed ones. -/
theorem isSome_ofNumber_iff : ∀ n : Byte, (Loc.ofNumber n).isSome = true ↔ Safety.mapped n.toNat := by
  unfold Safety.mapped
  decide

theorem ofNumber_eq_none {n : Byte} (h : ¬Safety.mapped n.toNat) : Loc.ofNumber n = none := by
  rwa [← isSome_ofNumber_iff, Bool.not_eq_true, Option.isSome_eq_false_iff, Option.isNone_iff_eq_none] at h

/-! ### Fields of a pattern -/

/-- The second byte of a pattern, as the quotient the statements are written with. -/
theorem extract_secondByte (p : Word) : p.extractLsb' 8 8 = BitVec.ofNat 8 (p.toNat / 256) :=
  congrArg (BitVec.ofNat 8) (Nat.shiftRight_eq_div_pow p.toNat 8)

/-- Fields side by side, as the sum the statements are written with. -/
theorem toNat_append_eq_add {m n : Nat} (x : BitVec m) (y : BitVec n) :
    (x ++ y).toNat = x.toNat * 2 ^ n + y.toNat := by
  rw [BitVec.toNat_append, ← Nat.shiftLeft_add_eq_or_of_lt y.isLt, Nat.shiftLeft_eq]

/-- The only pattern `satW` changes is the most negative one (20_memory.md R64). -/
theorem excess32_sx (p : Word) : Safety.excess32 (sx p) = if p = 0x80000000 then 1 else 0 := by
  have hsx : sx p = -2147483648 ↔ p = 0x80000000 :=
    ⟨fun h => BitVec.eq_of_toInt_eq (h.trans (by decide)), fun h => h ▸ by decide⟩
  have := sx_bounds p
  simp only [← hsx, Safety.excess32, Safety.excess, Safety.limit]
  split_ifs <;> omega

/-- Every command's word decodes to it (30_encoding.md R87). -/
theorem decode_encode (i : Instr) : decode (encode i) = .ok i := by
  cases i <;> rfl

end Sys2Proof

namespace Sys2Proof.Machine

open Sys2Proof.Safety

variable (s : State)

/-! ### Reads (20_memory.md R61, R63) -/

/-- The number of a location reads what the location holds. -/
@[simp] theorem readReg_number (l : Loc) : s.readReg l.number = s.readLoc l := by
  simp only [State.readReg, ofNumber_number]

theorem readReg_unmapped {n : Byte} (h : ¬mapped n.toNat) : s.readReg n = 0 := by
  simp only [State.readReg, ofNumber_eq_none h]

/-- A location that shows a narrower field reads the field's number. -/
theorem readReg_field_toNat (l : Loc) {n : Byte} {k : Nat} {v : BitVec k} (hn : l.number = n) (hk : k ≤ 32)
    (hv : s.readLoc l = zext v) : (s.readReg n).toNat = v.toNat := by
  rw [← hn, readReg_number, hv, zext, BitVec.toNat_setWidth_of_le hk]

/-- A band's location reads its two bounds, one byte each (10_state.md R38). -/
theorem readReg_band_toNat (l : Loc) {lo hi : Byte} (hv : s.readLoc l = zext (hi ++ lo)) :
    (s.readReg l.number).toNat = lo.toNat + 256 * hi.toNat := by
  rw [readReg_field_toNat s l rfl (by decide) hv, toNat_append_eq_add]
  omega

theorem status_word_toNat (x : Status) :
    x.word.toNat = x.code.bits.toNat + 256 * x.dz.toNat + 512 * x.ce.toNat + 1024 * x.sat.toNat + 2048 * x.ill.toNat := by
  simp only [Status.word, toNat_append_eq_add, BitVec.toNat_ofBool, BitVec.toNat_ofNat]
  omega

/-! ### Writes (20_memory.md R62 to R65) -/

/-- A write to the number of a location other than `CMD`. -/
theorem transact_number {l : Loc} (p : Word) (hl : l ≠ .cmd) :
    transact (.wr l.number p) s = .next (s.writeLoc l p) :=
  transact_loc s p (ofNumber_number l) hl

/-- A location that is not writable ignores a host write (20_memory.md R63). -/
theorem writeLoc_of_not_writable {l : Loc} (p : Word) (h : ¬writable l.number.toNat) : s.writeLoc l p = s := by
  unfold writable at h
  cases l with
  | status | a0 | a1 | a2 | acc | satcnt | snsCfg | snsVthr | snsDthr | snsFloor | snsLine => exact absurd h (by decide)
  | _ => rfl

theorem transact_not_writable {n : Byte} (p : Word) (hn : n ≠ 0x00) (h : ¬writable n.toNat) :
    transact (.wr n p) s = .next s := by
  cases hl : Loc.ofNumber n with
  | none => exact transact_unmapped s p hl
  | some l =>
    obtain rfl := number_of_ofNumber hl
    rw [transact_number s p fun hc => hn (by rw [hc]; rfl), writeLoc_of_not_writable s p h]

theorem runCommand_of_decode {p : Word} {i : Instr} (h : decode p = .ok i) : runCommand p s = exec i s := by
  simp only [runCommand, h]

/-- The step that takes a command word the host wrote to `CMD` runs the command (20_memory.md R65). -/
theorem step_of_pending_command {p : Word} {i : Instr} {rest : List HostOp}
    (hp : s.env.pending = .txn (.wr 0x00 p) :: rest) (hd : decode p = .ok i) :
    step s = exec i (s.setPending rest) := by
  simp only [step, hp, hostOp, transact_cmd, runCommand_of_decode _ hd]

theorem step_idle (hp : s.env.pending = []) : step s = .next s := by
  simp only [step, hp]

/-- Settles O52: the two directions of the register map, and the numbers it lists. -/
theorem locationNumbersAreInverse : Obligations.LocationNumbersAreInverse :=
  ⟨ofNumber_number, fun _ _ => number_of_ofNumber, isSome_ofNumber_iff⟩

/-- Settles O3: the word fetched for a command is its encoding, in front of what is pending. -/
theorem stepRunsTheDecodedCommand : Obligations.StepRunsTheDecodedCommand := by
  refine ⟨fun s p i rest => step_of_pending_command s, fun s i => ?_, step_idle⟩
  have hword : BitVec.ofNat 32 ((encode i).toNat % 2 ^ 32) = encode i := by
    rw [Nat.mod_eq_of_lt (encode i).isLt, BitVec.ofNat_toNat, BitVec.setWidth_eq]
  refine step_of_pending_command (s.withFetchWord 32 (encode i).toNat) (rest := s.env.pending) rfl ?_
  rw [hword, decode_encode]

/-- Settles O5: a read is an observation and nothing else. -/
theorem readReturnsTheLocationAndKeepsTheBlock : Obligations.ReadReturnsTheLocationAndKeepsTheBlock :=
  transact_rd

/-- Settles O8: a location that is not writable is read-only or unmapped, and a write to either leaves the state. -/
theorem readOnlyAndUnmappedLocationsIgnoreTheHost : Obligations.ReadOnlyAndUnmappedLocationsIgnoreTheHost := by
  refine ⟨fun s n p => transact_not_writable s p, fun s n hn => ⟨?_, _, transact_rd s n, rfl⟩⟩
  obtain rfl | hn := hn
  · exact readReg_number s .cmd
  · exact readReg_unmapped s hn

/-- Settles O6: each number is a location's, and shows that location's fields at their positions. -/
theorem registerMapShowsTheState : Obligations.RegisterMapShowsTheState := by
  intro s
  have hread := readReg_number s
  have hfield := @readReg_field_toNat s
  refine ⟨?status, ⟨hread .a0, hread .a1, hread .a2, hread .r0, hread .acc, hread .satcnt, hread .param⟩,
    ⟨hread .pidKp, hread .pidKi, hread .pidKd, ?outcfg, hread .pidOutmin, hread .pidOutmax, hread .pidLasterr,
      hread .pidIacc, hread .pidLasttime, hread .pidLastout⟩,
    ⟨?cfg, hfield .snsVthr rfl (by decide) rfl, hfield .snsDthr rfl (by decide) rfl,
      readReg_band_toNat s .snsFloor rfl, readReg_band_toNat s .snsLine rfl, ?state,
      hfield .snsChsel rfl (by decide) rfl⟩,
    fun i => ?channels, fun b => hfield (.snsHist b) (BitVec.ofNat_add ..) (by decide) rfl⟩
  case status => exact (congrArg BitVec.toNat (hread .status)).trans (status_word_toNat _)
  case outcfg =>
    refine (congrArg BitVec.toNat (hread .pidOutcfg)).trans ?_
    simp only [State.readLoc, toNat_append_eq_add, BitVec.toNat_ofBool, BitVec.toNat_ofNat]
    omega
  case cfg => exact (hfield .snsCfg rfl (by decide) rfl).trans (BitVec.toNat_ofBool _)
  case state =>
    refine (hfield .snsState rfl (by decide) rfl).trans ?_
    simp only [toNat_append_eq_add, BitVec.toNat_ofBool]
    omega
  case channels =>
    have hslot (base : Nat) : BitVec.ofNat 8 (base + i) = BitVec.ofNat 8 base + BitVec.ofNat 8 i := BitVec.ofNat_add ..
    exact ⟨hfield (.snsRaw i) (hslot 0x40) (by decide) rfl, hfield (.snsMin i) (hslot 0x50) (by decide) rfl,
      hfield (.snsMax i) (hslot 0x60) (by decide) rfl, hfield (.snsRange i) (hslot 0x70) (by decide) rfl,
      hfield (.snsNorm i) (hslot 0x80) (by decide) rfl, hslot 0x90 ▸ hread (.snsCoef i)⟩

/-- Settles O7: each number is a location's, and the write stores that location's fields; `ACC` takes the saturated value. -/
theorem hostWriteStoresTheFields : Obligations.HostWriteStoresTheFields := by
  intro s p
  have hwrite (l : Loc) (hl : l ≠ .cmd) := transact_number s p hl
  refine ⟨hwrite .a0 (by decide), hwrite .a1 (by decide), hwrite .a2 (by decide), hwrite .satcnt (by decide),
    hwrite .status (by decide), ?acc, hwrite .snsCfg (by decide), hwrite .snsVthr (by decide), hwrite .snsDthr (by decide),
    ?floor, ?line⟩
  case acc =>
    obtain ⟨hacc, hpid, hsns, henv, hiface, hrec⟩ := writeAcc_spec s p
    rw [excess32_sx] at hrec
    exact ⟨_, hwrite .acc (by decide), by rw [State.writeLoc, hacc, sx_enc_clamp]; rfl, hrec, hpid, hsns, henv, hiface⟩
  case floor => rw [← extract_secondByte]; exact hwrite .snsFloor (by decide)
  case line => rw [← extract_secondByte]; exact hwrite .snsLine (by decide)

end Sys2Proof.Machine
end

section
/-! PROOFS. What every command leaves to the host and to the channel port (20_memory.md R66, R75): the operands, the
configuration, the pending operations, and the samples. -/

namespace Sys2Proof.Safety

open Sys2Proof.Machine

variable {i : Instr} {s t u : State} {x y : Sns}

/-! ### The operand registers (10_state.md R22) -/

theorem OperandsKept.refl (s : State) : OperandsKept s s := ⟨rfl, rfl, rfl⟩

theorem OperandsKept.trans (hst : OperandsKept s t) (htu : OperandsKept t u) : OperandsKept s u := by
  obtain ⟨h0, h1, h2⟩ := hst
  obtain ⟨hu0, hu1, hu2⟩ := htu
  exact ⟨hu0.trans h0, hu1.trans h1, hu2.trans h2⟩

/-- The frame of a command that writes a result keeps the operands. -/
theorem ResultFrame.operandsKept (h : ResultFrame s t) : OperandsKept s t := by
  unfold ResultFrame at h
  unfold OperandsKept
  rw [h]
  exact ⟨rfl, rfl, rfl⟩

theorem NoResultFrame.resultFrame (h : NoResultFrame s t) : ResultFrame s t := by
  unfold NoResultFrame ResultFrame at *
  rw [h]

theorem OnlyRecords.resultFrame (h : OnlyRecords s t) : ResultFrame s t := by
  unfold OnlyRecords ResultFrame at *
  rw [h]

/-! Each operation of a command, after others that kept the operands. -/

theorem OperandsKept.setR0 (h : OperandsKept s t) (v : Word) : OperandsKept s (t.setR0 v) :=
  h.trans ⟨rfl, rfl, rfl⟩

theorem OperandsKept.setAcc (h : OperandsKept s t) (v : Word) : OperandsKept s (t.setAcc v) :=
  h.trans ⟨rfl, rfl, rfl⟩

theorem OperandsKept.setPid (h : OperandsKept s t) (x : Pid) : OperandsKept s (t.setPid x) :=
  h.trans ⟨rfl, rfl, rfl⟩

theorem OperandsKept.setSns (h : OperandsKept s t) (x : Sns) : OperandsKept s (t.setSns x) :=
  h.trans ⟨rfl, rfl, rfl⟩

theorem OperandsKept.setPhase (h : OperandsKept s t) (p : Phase) : OperandsKept s (t.setPhase p) :=
  h.trans ⟨rfl, rfl, rfl⟩

theorem OperandsKept.setDz (h : OperandsKept s t) : OperandsKept s t.setDz :=
  h.trans ⟨rfl, rfl, rfl⟩

theorem OperandsKept.complete (h : OperandsKept s t) (c : Code) : OperandsKept s (t.complete c) :=
  h.trans ⟨rfl, rfl, rfl⟩

theorem OperandsKept.configError (h : OperandsKept s t) : OperandsKept s t.configError :=
  h.trans ⟨rfl, rfl, rfl⟩

/-- The loops and terms of a command, of the interface registers, only record events. -/
theorem OperandsKept.records (h : OperandsKept s t) (hrec : OnlyRecords t u) : OperandsKept s u :=
  h.trans hrec.resultFrame.operandsKept

theorem OperandsKept.noteSat (h : OperandsKept s t) (lo hi v : Int) : OperandsKept s (t.noteSat lo hi v) :=
  h.records (onlyRecords_noteSat ..)

theorem OperandsKept.readAll (h : OperandsKept s t) : OperandsKept s t.readAll :=
  h.records (onlyRecords_readAll t)

theorem OperandsKept.applyGains (h : OperandsKept s t) (kp ki kd : Int) (oob : Bool) :
    OperandsKept s (t.applyGains kp ki kd oob) := by
  obtain ⟨-, -, -, hframe, -⟩ := applyGains_spec t kp ki kd oob
  exact h.trans hframe.resultFrame.operandsKept

theorem OperandsKept.terms (h : OperandsKept s t) (e dt : Int) :
    OperandsKept s (termI e dt (termD e dt (termP e t).2).2).2 :=
  h.records (terms_frame t e dt).records

theorem OperandsKept.finishStep (h : OperandsKept s t) (e : Int) (now : BitVec 32) (sum : Int) :
    OperandsKept s (t.finishStep e now sum) := by
  obtain ⟨-, -, -, -, hframe, -⟩ := finishStep_spec t e sum now
  exact h.trans hframe.operandsKept

theorem OperandsKept.feedHistogram (h : OperandsKept s t) (valid : Bool) : OperandsKept s (t.feedHistogram valid) := by
  obtain ⟨-, -, -, hrec⟩ := feedHistogram_spec t valid
  exact h.records hrec

theorem OperandsKept.normAll (h : OperandsKept s t) : OperandsKept s t.normAll := by
  obtain ⟨-, -, -, hrec, -⟩ := normAll_spec t
  exact h.records hrec

theorem OperandsKept.coeffLoop (h : OperandsKept s t) (wf : Int) :
    OperandsKept s ((List.finRange Config.pairs).foldl (coeffPair wf) (Config.one, t)).2 := by
  obtain ⟨-, -, -, hrec, -⟩ := coeffLoop_spec wf t
  exact h.records hrec

/-! ### The sensor unit's host-writable registers, samples and channel (10_state.md R37 to R39) -/

/-- No command writes the sensor configuration or the bands. -/
theorem SnsAfter.configKept (h : SnsAfter i x y) : ConfigKept x y := by
  unfold ConfigKept
  cases i with
  | snsReset => obtain rfl := h; simp [Sns.discard]
  | snsRead => obtain ⟨r, rfl⟩ := h; simp
  | snsCal => obtain ⟨r, hist, v, rfl⟩ := h; simp [Sns.widen]
  | snsPol => obtain ⟨p, rfl⟩ := h; simp
  | snsCoeff => obtain ⟨wf, v, -, rfl⟩ := h; simp
  | snsPos => obtain ⟨r, n, rfl⟩ := h; simp
  | _ => obtain rfl := h; simp

/-- A command that takes samples leaves the last channel selected (42_sensor.md R151). -/
theorem SnsAfter.chsel_of_samples (h : SnsAfter i x y) (hi : i.samples = true) : y.chsel = 7 := by
  cases i with
  | snsRead => obtain ⟨r, rfl⟩ := h; rfl
  | snsCal => obtain ⟨r, hist, v, rfl⟩ := h; rfl
  | snsPos => obtain ⟨r, n, rfl⟩ := h; rfl
  | _ => cases hi

/-- A command that takes no samples keeps the samples and the selected channel. -/
theorem SnsAfter.raw_chsel_kept (h : SnsAfter i x y) (hi : i.samples = false) : y.chsel = x.chsel ∧ y.raw = x.raw := by
  cases i with
  | snsRead | snsCal | snsPos => cases hi
  | snsReset => obtain rfl := h; exact ⟨rfl, rfl⟩
  | snsPol => obtain ⟨p, rfl⟩ := h; exact ⟨rfl, rfl⟩
  | snsCoeff => obtain ⟨wf, v, -, rfl⟩ := h; exact ⟨rfl, rfl⟩
  | _ => obtain rfl := h; exact ⟨rfl, rfl⟩

end Sys2Proof.Safety

namespace Sys2Proof.Machine

open Sys2Proof.Safety

variable (s : State)

theorem samples_iff_mem (i : Instr) : i.samples = true ↔ i ∈ [Instr.snsRead, .snsCal, .snsPos] := by
  cases i <;> decide

/-! ### Every command keeps the operands -/

theorem execPidStep_operandsKept : ∃ t, execPidStep s = .next t ∧ OperandsKept s t := by
  have h : OperandsKept s s := .refl s
  rw [execPidStep_eq]
  split
  · exact ⟨_, rfl, (h.setR0 _).complete _⟩
  · exact ⟨_, rfl, (((h.noteSat _ _ _).noteSat _ _ _).terms _ _).finishStep _ _ _⟩

/-- No command writes an operand register: each is a chain of operations that keep them (20_memory.md R75). -/
theorem exec_operandsKept (i : Instr) : ∃ t, exec i s = .next t ∧ OperandsKept s t := by
  have h : OperandsKept s s := .refl s
  cases i with
  | fxMul => exact ⟨_, rfl, ((h.noteSat _ _ _).setR0 _).complete _⟩
  | fxDiv =>
    by_cases h0 : sx s.iface.a1 = 0
    · exact ⟨_, if_pos h0, (h.setR0 _).setDz.complete _⟩
    · exact ⟨_, if_neg h0, ((h.noteSat _ _ _).setR0 _).complete _⟩
  | fxSat =>
    by_cases hbits : zx s.iface.a1 < 2 ∨ Config.W < zx s.iface.a1
    · exact ⟨_, if_pos hbits, h.configError⟩
    · exact ⟨_, if_neg hbits, ((h.noteSat _ _ _).setR0 _).complete _⟩
  | fxMac => exact ⟨_, rfl, (((h.noteSat _ _ _).setAcc _).setR0 _).complete _⟩
  | pidCfg | pidCfgstd => exact ⟨_, rfl, h.applyGains _ _ _ _⟩
  | pidSetout =>
    by_cases hlegal : outLegal (zx s.iface.a0) (zx s.iface.a1) = true
    · exact ⟨_, if_pos hlegal, (h.setPid _).complete _⟩
    · exact ⟨_, if_neg hlegal, h.configError⟩
  | pidStep => exact execPidStep_operandsKept s
  | snsReset => exact ⟨_, rfl, (h.setSns _).complete _⟩
  | snsRead => exact ⟨_, rfl, h.readAll.complete _⟩
  | snsCal =>
    exact ⟨_, execSnsCal_eq s, ((((h.readAll.setSns _).feedHistogram _).setSns _).setR0 _).complete _⟩
  | snsPol => exact ⟨_, execSnsPol_eq s, ((h.setSns _).setR0 _).complete _⟩
  | snsCoeff => exact ⟨_, execSnsCoeff_eq s, (((h.noteSat _ _ _).coeffLoop _).setPhase _).complete _⟩
  | snsPos => exact ⟨_, execSnsPos_eq s, (((h.readAll.normAll.noteSat _ _ _).setR0 _).setPhase _).complete _⟩
  | snsOnfloor | snsOnline => exact ⟨_, rfl, (h.setR0 _).complete _⟩

/-! ### The three sampling commands store what they read -/

theorem readAll_raw : s.readAll.sns.raw = Vector.ofFn fun j => s.incoming j := by rw [readAll_sns]

/-- Nothing after the read-all procedure writes `RAW` (42_sensor.md R151). -/
theorem exec_raw_of_samples {i : Instr} (hi : i.samples = true) :
    ∃ t, exec i s = .next t ∧ t.sns.raw = Vector.ofFn fun j => s.incoming j := by
  cases i with
  | snsRead => exact ⟨_, rfl, readAll_raw s⟩
  | snsCal =>
    refine ⟨_, execSnsCal_eq s, ?_⟩
    obtain ⟨⟨hist, hsns⟩, -⟩ := feedHistogram_spec (s.readAll.setSns s.readAll.sns.widen)
      (s.readAll.setSns s.readAll.sns.widen).sns.isValid
    rw [complete_sns, setR0_sns, setSns_sns, hsns]
    exact readAll_raw s
  | snsPos =>
    obtain ⟨hsns, -⟩ := normAll_spec s.readAll
    refine ⟨_, execSnsPos_eq s, ?_⟩
    rw [complete_sns, setPhase_sns, setR0_sns, noteSat_sns, hsns, readAll_raw]
  | _ => cases hi

/-- Settles O12: the operands by what each command records and writes, the configuration and the pending operations by its
effect on the sensor unit and the ports. -/
theorem commandsKeepOperandsAndConfiguration : Obligations.CommandsKeepOperandsAndConfiguration := by
  intro i s t h
  obtain ⟨-, ⟨c, dz, ce, -, -, -, hill⟩, -, hsns, henv⟩ := effect_of_exec h
  obtain ⟨hdz, hce, hsat, -⟩ := exec_flagsKept h
  obtain ⟨u, hu, hoperands⟩ := exec_operandsKept s i
  obtain rfl : u = t := Host.Outcome.next.inj (hu.symm.trans h)
  have hpending : u.env.pending = s.env.pending := by
    rw [henv]
    cases i.samples <;> rfl
  exact ⟨hoperands, hsns.configKept, hpending, hdz, hce, hsat, by rw [hill, Bool.or_false]⟩

/-- Settles O17: the ports and the selected channel by the command's effect, and the samples stored by what it reads. -/
theorem onlyThreeCommandsTakeSamples : Obligations.OnlyThreeCommandsTakeSamples := by
  intro i s t h
  obtain ⟨-, -, -, hsns, henv⟩ := effect_of_exec h
  simp only [← samples_iff_mem]
  cases hi : i.samples with
  | true =>
    obtain ⟨u, hu, hraw⟩ := exec_raw_of_samples s hi
    obtain rfl : u = t := Host.Outcome.next.inj (hu.symm.trans h)
    refine ⟨henv.trans (by rw [hi]; rfl), hsns.chsel_of_samples hi, fun j => ?_⟩
    rw [hraw]
    exact Vector.getElem_ofFn _
  | false => exact ⟨henv.trans (by rw [hi]; rfl), hsns.raw_chsel_kept hi⟩

end Sys2Proof.Machine
end

section
/-! PROOFS. The encodings (30_encoding.md): the command word and its decoder, the line encoding of a transaction, and what the
assembler lines do when the host's operations are taken. -/

namespace Sys2Proof

/-! ### The command word (30_encoding.md R80 to R87) -/

/-- A word without reserved bits is its two fields side by side (30_encoding.md R80). -/
theorem toNat_eq_fields {p : Word} (hreserved : p.extractLsb' 8 24 = 0#24) :
    p.toNat = 16 * unitField p + funcField p := by
  have hhigh : p.toNat / 2 ^ 8 % 2 ^ 24 = 0 := by
    rw [← Nat.shiftRight_eq_div_pow, ← BitVec.extractLsb'_toNat, hreserved]
    rfl
  have hlt := p.isLt
  simp only [unitField, funcField, BitVec.extractLsb'_toNat, Nat.shiftRight_eq_div_pow]
  omega

theorem encode_of_decodeFx {func : Nat} {i : Instr} (h : decodeFx func = .ok i) :
    (encode i).toNat = 16 * 1 + func := by
  unfold decodeFx at h
  split at h <;> cases h <;> rfl

theorem encode_of_decodePid {func : Nat} {i : Instr} (h : decodePid func = .ok i) :
    (encode i).toNat = 16 * 2 + func := by
  unfold decodePid at h
  split at h <;> cases h <;> rfl

theorem encode_of_decodeSns {func : Nat} {i : Instr} (h : decodeSns func = .ok i) :
    (encode i).toNat = 16 * 3 + func := by
  unfold decodeSns at h
  split at h <;> cases h <;> rfl

/-- A legal word is the word of the command it decodes to: the reserved bits are zero, and the unit's table gives back the
function field (30_encoding.md R87). -/
theorem encode_of_decode {p : Word} {i : Instr} (h : decode p = .ok i) : encode i = p := by
  apply BitVec.eq_of_toNat_eq
  unfold decode at h
  split at h
  · cases h
  · next hreserved =>
    rw [toNat_eq_fields (not_not.mp hreserved)]
    split at h
    · next hunit => rw [encode_of_decodeFx h, hunit]
    · next hunit => rw [encode_of_decodePid h, hunit]
    · next hunit => rw [encode_of_decodeSns h, hunit]
    · cases h

/-- A word of the opcode table is decoded as the word it is (20_memory.md R68). -/
theorem decodeTableWord_toNat (p : Word) : decodeTableWord 32 p.toNat = (decode p).toOption := by
  simp only [decodeTableWord, Nat.mod_eq_of_lt p.isLt, p.isLt, if_true, BitVec.ofNat_toNat, BitVec.setWidth_eq]
  cases decode p <;> rfl

/-- A word of none of the sixteen commands is rejected (30_encoding.md R83). -/
theorem decode_error_of_not_encode {p : Word} (h : ∀ i : Instr, encode i ≠ p) : ∃ r, decode p = .error r := by
  cases hd : decode p with
  | ok i => exact absurd (encode_of_decode hd) (h i)
  | error r => exact ⟨r, rfl⟩

/-! ### The line encoding of a transaction (30_encoding.md R88) -/

/-- Enough digits are read back as the number they were written for. -/
theorem ofHex_toHex_of_lt {k n : Nat} (h : n < 16 ^ k) : ofHex 0 (toHex k n) = some n := by
  rw [ofHex_toHex, Nat.mod_eq_of_lt h, Nat.zero_mul, Nat.zero_add]

theorem ofLine_rd {a b : Char} {n : Byte} (hn : ofHex 0 [a, b] = some n.toNat) :
    Txn.ofLine ['R', ' ', a, b] = some (.rd n) := by
  simp only [Txn.ofLine, hn, Option.map_some, BitVec.ofNat_toNat, BitVec.setWidth_eq]

theorem ofLine_wr {a b : Char} {ds : List Char} {n : Byte} {p : Word} (hlen : ds.length = 8)
    (hn : ofHex 0 [a, b] = some n.toNat) (hp : ofHex 0 ds = some p.toNat) :
    Txn.ofLine ('W' :: ' ' :: a :: b :: ' ' :: ds) = some (.wr n p) := by
  simp only [Txn.ofLine, hlen, if_true, hn, hp, BitVec.ofNat_toNat, BitVec.setWidth_eq]

/-- A line has the location's two digits at fixed places, and a write's eight digits after them. -/
theorem ofLine_toLine (x : Txn) : Txn.ofLine x.toLine = some x := by
  cases x with
  | rd n =>
    have hn : ofHex 0 (toHex 2 n.toNat) = some n.toNat := ofHex_toHex_of_lt n.isLt
    exact ofLine_rd hn
  | wr n p =>
    have hn : ofHex 0 (toHex 2 n.toNat) = some n.toNat := ofHex_toHex_of_lt n.isLt
    have hp : ofHex 0 (toHex 8 p.toNat) = some p.toNat := ofHex_toHex_of_lt p.isLt
    exact ofLine_wr (toHex_length 8 p.toNat) hn hp

/-- Settles O50: each direction of the decoder, the second through the decoder of the opcode table as well. -/
theorem decodeAndEncodeAreInverse : Obligations.DecodeAndEncodeAreInverse := by
  refine ⟨fun i => ⟨decode_encode i, ?_⟩, fun p i => encode_of_decode, by decide⟩
  rw [decodeTableWord_toNat, decode_encode]
  rfl

/-- Settles O51: the legal words are the encodings of their commands, the others are rejected by the field they break. -/
theorem tableWordsDecodeAsTabled : Obligations.TableWordsDecodeAsTabled :=
  ⟨decode_encode .fxSat, decode_encode .pidCfgstd, decode_encode .snsOnfloor, rfl, rfl, rfl, rfl, rfl, rfl, rfl⟩

/-- Settles O53: the digits of both fields are read back. -/
theorem lineEncodingIsReadBack : Obligations.LineEncodingIsReadBack := ofLine_toLine

/-- Settles O54: the expansions and the lines are evaluated. -/
theorem workedLinesExpandAsWritten : Obligations.WorkedLinesExpandAsWritten := by
  unfold Obligations.WorkedLinesExpandAsWritten
  decide

end Sys2Proof

namespace Sys2Proof.Machine

open Sys2Proof.Safety

variable (s : State)

/-! ### An illegal command word (30_encoding.md R84) -/

theorem runCommand_of_error {p : Word} {r : Reject} (h : decode p = .error r) :
    runCommand p s = .next s.illegalCommand := by
  simp only [runCommand, h]

/-- Settles O4: the word of no command is rejected, and a rejected word only completes as illegal. -/
theorem illegalWordSetsOnlyCodeAndFlag : Obligations.IllegalWordSetsOnlyCodeAndFlag := by
  intro s p h
  obtain ⟨r, hr⟩ := decode_error_of_not_encode h
  rw [afterTxn_eq, transact_cmd, runCommand_of_error s hr]
  rfl

/-! ### `FEED` (30_encoding.md R89) -/

theorem step_of_pending {op : HostOp} {rest : List HostOp} (hp : s.env.pending = op :: rest) :
    step s = hostOp op (s.setPending rest) := by
  simp only [step, hp]

/-- After an observed read, the value read last is the one it returned. -/
@[simp] theorem lastRead_append_read (trace : List Event) (n : Byte) (v : Word) :
    lastRead (trace ++ [.read n v]) = v := by
  simp [lastRead]

/-- Settles O11: the first step observes `R0`, the second writes the value observed last to `A0`. -/
theorem feedPassesTheResultToTheFirstOperand : Obligations.FeedPassesTheResultToTheFirstOperand := by
  intro s rest hp
  have hread : step s = .next ((s.setPending (.wrLast 0x02 :: rest)).observe (.read 0x05 s.iface.r0)) :=
    step_of_pending s hp
  refine ⟨_, hread, ?_⟩
  rw [step_of_pending _ rfl, hostOp]
  refine (transact_number _ _ (l := .a0) (by decide)).trans ?_
  simp only [State.writeLoc, setPending_env, observe_env, lastRead_append_read]
  rfl

/-! ### A command's bracket (30_encoding.md R88) -/

/-- On the eight bytes of a bracket, a sampling command stores them, uses them up and has them observed. -/
theorem exec_setSamples {i : Instr} (hi : i.samples = true) (v : Vector Byte 8) :
    ∃ t, exec i (s.setSamples v.toList) = .next t ∧ t.sns.raw = v ∧
      t.env =
        { s.env with
          samples := [], sampleNo := s.env.sampleNo + 8,
          trace := s.env.trace ++ List.ofFn fun k : Fin 8 => Event.sample k v[k] } := by
  obtain ⟨t, ht, hraw⟩ := exec_raw_of_samples (s.setSamples v.toList) hi
  refine ⟨t, ht, ?_, ?_⟩
  · rw [hraw]
    exact Vector.ext fun j hj => (Vector.getElem_ofFn hj).trans (incoming_setSamples s v ⟨j, hj⟩)
  · rw [(effect_of_exec ht).env, hi, cond_true]
    simp [afterSamples, incoming_setSamples]

/-- The step over a bracketed command runs it on its bracket, and what was supplied before stands again. -/
theorem step_of_pending_bracket {i : Instr} {v : Vector Byte 8} {rest : List HostOp} {t : State}
    (hp : s.env.pending = Line.expand (.cmd i v.toList) ++ rest)
    (ht : exec i ((s.setPending rest).setSamples v.toList) = .next t) :
    step s = .next (t.setSamples s.env.samples) := by
  have hop : s.env.pending = .sampled (.wr 0x00 (encode i)) v.toList :: rest := by
    rw [hp, Line.expand, issueWith_vector]
    rfl
  rw [step_of_pending s hop, hostOp]
  refine transactWith_next _ ?_
  rw [transact_cmd, runCommand_of_decode _ (decode_encode i), ht]

/-- Settles O58: the bracketed step by the two lemmas above; a plain write runs its command on what is supplied to others, and
leaves the bracket pending behind it. -/
theorem bracketSuppliesItsCommandAlone : Obligations.BracketSuppliesItsCommandAlone := by
  simp only [Obligations.BracketSuppliesItsCommandAlone, ← samples_iff_mem]
  refine ⟨fun s i v rest hi hp => ?_, fun s i j v rest hi hj hp => ?_⟩
  · obtain ⟨t, ht, hraw, henv⟩ := exec_setSamples (s.setPending rest) hi v
    exact ⟨t, ht, step_of_pending_bracket s hp ht, hraw, henv⟩
  · set bracket := Line.expand (.cmd j v.toList) ++ rest
    have hcmd : s.env.pending = .txn (.wr 0x00 (encode i)) :: bracket := by
      rw [hp]
      simp [Line.expand, Reg.toNumber, Value.pattern, Loc.number]
    obtain ⟨t, ht, hraw⟩ := exec_raw_of_samples (s.setPending bracket) hi
    have hpending : t.env.pending = bracket := by
      rw [(effect_of_exec ht).env, hi]
      rfl
    obtain ⟨u, hu, hrawu, -⟩ := exec_setSamples (t.setPending rest) hj v
    refine ⟨t, _, (step_of_pending_command s hcmd (decode_encode i)).trans ht, step_of_pending_bracket t hpending hu,
      fun k => ?_, hrawu⟩
    rw [hraw]
    exact Vector.getElem_ofFn _

end Sys2Proof.Machine
end

section
/-! PROOFS. The fixed-point unit (40_fixed_point.md R101 to R110): the laws of exact multiplication and division, the answer of
each command as a function of its operands, and the statements about the commands read off that answer. -/

namespace Sys2Proof

/-! ### The exact arithmetic (40_fixed_point.md R105, R106) -/

/-- Negating an operand rounds the opposite way, so the result is one lower unless the product is a multiple of 256. -/
theorem mulraw_neg_left (a b : Int) :
    mulraw (-a) b = if 256 ∣ a * b then -mulraw a b else -mulraw a b - 1 := by
  rw [mulraw_eq, mulraw_eq, neg_mul, Int.neg_ediv]
  split <;> simp

/-- The quotient toward zero is the floor of the magnitudes (00_scope.md R14). -/
theorem abs_tdiv (a b : Int) : |Int.tdiv a b| = |a| / |b| := by
  simp only [Int.abs_eq_natAbs, Int.natAbs_tdiv]
  rfl

theorem abs_divraw (a b : Int) : |divraw a b| = |256 * a| / |b| := by
  rw [divraw_eq, abs_tdiv, mul_comm]

/-- Settles O23: `mulraw` is the floor division of the exact product by 256. -/
theorem multiplyRoundsTowardNegativeInfinity : Obligations.MultiplyRoundsTowardNegativeInfinity := by
  refine fun a b => ⟨?comm, ?floor_le, ?lt_floor, ?identity, ?negation, mulraw_neg_left a b⟩ <;> simp only [mulraw_eq]
  case comm => rw [mul_comm]
  case floor_le => exact Int.ediv_mul_le _ (by decide)
  case lt_floor => exact Int.lt_ediv_add_one_mul_self _ (by decide)
  case identity => exact Int.mul_ediv_cancel_left a (by decide)
  case negation => rw [Int.neg_mul_comm, Int.mul_ediv_cancel_left _ (by decide)]

/-- Settles O24: the signs come out of `Int.tdiv`, and the magnitude is a floor division. -/
theorem divideRoundsTowardZero : Obligations.DivideRoundsTowardZero := by
  intro a b hb
  have hpos : 0 < |b| := abs_pos.mpr hb
  refine ⟨?neg_left, ?neg_right, ?le, ?lt, fun ha _ => ?floor, ?identity⟩
  case neg_left => rw [divraw_eq, divraw_eq, neg_mul, Int.neg_tdiv]
  case neg_right => rw [divraw_eq, divraw_eq, Int.tdiv_neg]
  case le => rw [abs_divraw]; exact Int.ediv_mul_le _ hpos.ne'
  case lt => rw [abs_divraw]; exact Int.lt_ediv_add_one_mul_self _ hpos
  case floor => rw [divraw_eq, Int.tdiv_eq_ediv_of_nonneg (by omega), mul_comm]
  case identity => rw [divraw_eq, Int.mul_tdiv_cancel a (by decide)]

end Sys2Proof

namespace Sys2Proof.Safety

open Sys2Proof.Machine

/-! ### Saturation to a symmetric range (00_scope.md R12) -/

theorem limit_eq_max_min {m : Int} (hm : 0 ≤ m) (v : Int) : limit (-m) m v = max (-m) (min m v) :=
  clamp_eq_max_min v (by omega)

/-- A value limited to a symmetric range of at most 32 bits is read back as it was stored. -/
theorem sx_enc_limit_symmetric {m : Int} (hm : 0 ≤ m) (hm' : m ≤ 2147483647) (v : Int) :
    sx (enc (limit (-m) m v)) = limit (-m) m v := by
  have := limit_bounds (lo := -m) (hi := m) v (by omega)
  exact sx_enc (by omega) (by omega)

theorem sx_enc_limit32 (v : Int) : sx (enc (limit32 v)) = limit32 v := sx_enc_clamp v

/-- The largest signed value of a width of at most 32 bits (40_fixed_point.md R103). -/
theorem width_bound {n : Nat} (hn : n ≤ 32) : (0 : Int) ≤ 2 ^ (n - 1) - 1 ∧ (2 : Int) ^ (n - 1) - 1 ≤ 2147483647 := by
  have hlow : (1 : Int) ≤ 2 ^ (n - 1) := one_le_pow₀ (by decide)
  have hhigh : (2 : Int) ^ (n - 1) ≤ 2 ^ 31 := pow_le_pow_right₀ (by decide) (by omega)
  omega

/-- An event is recorded exactly for a magnitude above the bound. -/
theorem excess_symmetric {m : Int} (hm : 0 ≤ m) (v : Int) : excess (-m) m v = if |v| > m then 1 else 0 := by
  have hkept : limit (-m) m v = v ↔ ¬|v| > m := by
    rw [not_lt, abs_le, limit_eq_max_min hm]
    omega
  simp only [excess, hkept, ite_not]

/-! ### The answer of a fixed-point command (40_fixed_point.md R110) -/

/-- What a fixed-point command makes of the interface registers: the result it stores, if any, the accumulator, the completion
code, the error flags it sets and the number of saturation events. -/
structure FxAnswer where
  r0     : Option Word
  acc    : Word
  code   : Code
  dz     : Bool
  ce     : Bool
  events : Nat

/-- The answer that stores the exact value `v` limited to `lo` to `hi`, with `acc` in the accumulator. -/
def FxAnswer.stored (acc : Word) (lo hi v : Int) : FxAnswer :=
  { r0 := some (enc (limit lo hi v)), acc := acc, code := .ok, dz := false, ce := false, events := excess lo hi v }

/-- The answer of a division by zero (40_fixed_point.md R102). -/
def FxAnswer.divZero (acc : Word) : FxAnswer :=
  { r0 := some 0, acc := acc, code := .divzero, dz := true, ce := false, events := 0 }

/-- The answer to an illegal width (40_fixed_point.md R103). -/
def FxAnswer.badWidth (acc : Word) : FxAnswer :=
  { r0 := none, acc := acc, code := .cfgerr, dz := false, ce := true, events := 0 }

/-- `FX.MUL` on `A0 = a`, `A1 = b` and `ACC = acc` (40_fixed_point.md R101). -/
def fxMulAnswer (a b acc : Word) : FxAnswer :=
  .stored acc (-2147483647) 2147483647 (sx a * sx b / 256)

/-- `FX.DIV` (40_fixed_point.md R102). -/
def fxDivAnswer (a b acc : Word) : FxAnswer :=
  if sx b = 0 then .divZero acc else .stored acc (-2147483647) 2147483647 (Int.tdiv (sx a * 256) (sx b))

/-- `FX.SAT` (40_fixed_point.md R103). -/
def fxSatAnswer (a b acc : Word) : FxAnswer :=
  if b.toNat < 2 ∨ b.toNat > 32 then .badWidth acc
  else .stored acc (-(2 ^ (b.toNat - 1) - 1)) (2 ^ (b.toNat - 1) - 1) (sx a)

/-- `FX.MAC`: the sum goes to the accumulator as well (40_fixed_point.md R104). -/
def fxMacAnswer (a b acc : Word) : FxAnswer :=
  .stored (enc (limit32 (sx acc + sx a * sx b / 256))) (-2147483647) 2147483647 (sx acc + sx a * sx b / 256)

/-- From `s` to `t` a fixed-point command gave the answer `x` and changed nothing else. -/
structure Answers (s t : State) (x : FxAnswer) : Prop where
  r0        : t.iface.r0 = x.r0.getD s.iface.r0
  acc       : t.iface.acc = x.acc
  recorded  : Recorded s t x.events
  completed : Completed s t x.code x.dz x.ce false
  frame     : FxFrame s t

variable {s t s' t' : State}

/-- Writing the accumulator changes an answer in the accumulator alone. -/
theorem Answers.setAcc {x : FxAnswer} (h : Answers s t x) (w : Word) : Answers s (t.setAcc w) { x with acc := w } := by
  obtain ⟨hr0, -, hrec, hcompleted, hpid, hsns, henv, hiface⟩ := h
  exact ⟨hr0, rfl, hrec, hcompleted, hpid, hsns, henv, by rw [setAcc_iface, hiface]⟩

/-- Equally many events raise equal counters equally. -/
theorem Recorded.satcnt_eq {k : Nat} (h : Recorded s t k) (h' : Recorded s' t' k)
    (hcnt : s.iface.satcnt = s'.iface.satcnt) : t.iface.satcnt = t'.iface.satcnt := by
  obtain ⟨hafter, -⟩ := h
  obtain ⟨hafter', -⟩ := h'
  exact BitVec.eq_of_toNat_eq (by rw [hafter, hafter', hcnt])

/-- An answer stores its result or leaves it alone, whatever the state. -/
theorem Answers.r0_eq_or_kept {x : FxAnswer} (h : Answers s t x) (h' : Answers s' t' x) :
    t.iface.r0 = t'.iface.r0 ∨ (t.iface.r0 = s.iface.r0 ∧ t'.iface.r0 = s'.iface.r0) := by
  rw [h.r0, h'.r0]
  cases x.r0 with
  | some w => exact .inl rfl
  | none => exact .inr ⟨rfl, rfl⟩

end Sys2Proof.Safety

namespace Sys2Proof.Machine

open Sys2Proof.Safety

variable (s : State)

/-- Saturating the exact value once, storing it as the result and completing is the answer `FxAnswer.stored`. -/
theorem answers_stored (lo hi v : Int) :
    Answers s (((s.noteSat lo hi v).setR0 (enc (limit lo hi v))).complete .ok) (.stored s.iface.acc lo hi v) where
  r0 := rfl
  acc := noteSat_acc ..
  recorded := (recorded_noteSat s lo hi v).congr rfl rfl
  completed := completed_of_onlyRecords (onlyRecords_noteSat s lo hi v) rfl
  frame := by simp [FxFrame]

/-! ### The answer of each command -/

theorem execFxMul_answers :
    ∃ t, execFxMul s = .next t ∧ Answers s t (fxMulAnswer s.iface.a0 s.iface.a1 s.iface.acc) :=
  ⟨_, rfl, answers_stored s (-2147483647) 2147483647 _⟩

theorem execFxDiv_answers :
    ∃ t, execFxDiv s = .next t ∧ Answers s t (fxDivAnswer s.iface.a0 s.iface.a1 s.iface.acc) := by
  unfold fxDivAnswer
  split
  next h0 => exact ⟨_, if_pos h0, rfl, rfl, .zero rfl rfl, by simp [Completed, FxAnswer.divZero], rfl, rfl, rfl, rfl⟩
  next h0 =>
    rw [← divraw_eq]
    exact ⟨_, if_neg h0, answers_stored s (-2147483647) 2147483647 _⟩

theorem execFxSat_answers :
    ∃ t, execFxSat s = .next t ∧ Answers s t (fxSatAnswer s.iface.a0 s.iface.a1 s.iface.acc) := by
  unfold fxSatAnswer
  split
  next hbits =>
    exact ⟨_, if_pos hbits, rfl, rfl, .zero rfl rfl, by simp [Completed, FxAnswer.badWidth], rfl, rfl, rfl, rfl⟩
  next hbits =>
    have hm : ((2 ^ (s.iface.a1.toNat - 1) : Nat) : Int) - 1 = 2 ^ (s.iface.a1.toNat - 1) - 1 := by
      push_cast
      rfl
    rw [← hm]
    exact ⟨_, if_neg hbits, answers_stored s _ _ _⟩

theorem execFxMac_answers :
    ∃ t, execFxMac s = .next t ∧ Answers s t (fxMacAnswer s.iface.a0 s.iface.a1 s.iface.acc) :=
  ⟨_, rfl, (answers_stored s (-2147483647) 2147483647 _).setAcc _⟩

/-- The answer of a fixed-point command is one function of `A0`, `A1` and `ACC` for every state (40_fixed_point.md R110). -/
theorem exec_answers {i : Instr} (hi : i ∈ [Instr.fxMul, .fxDiv, .fxSat, .fxMac]) :
    ∃ f : Word → Word → Word → FxAnswer,
      ∀ s : State, ∃ t, exec i s = .next t ∧ Answers s t (f s.iface.a0 s.iface.a1 s.iface.acc) := by
  simp only [List.mem_cons, List.not_mem_nil, or_false] at hi
  obtain rfl | rfl | rfl | rfl := hi
  · exact ⟨_, execFxMul_answers⟩
  · exact ⟨_, execFxDiv_answers⟩
  · exact ⟨_, execFxSat_answers⟩
  · exact ⟨_, execFxMac_answers⟩

/-- Settles O22: both states get the same answer, and the counter after it depends on the counter before it alone. -/
theorem fxCommandsDependOnTheirOperandsAlone : Obligations.FxCommandsDependOnTheirOperandsAlone := by
  intro i s s' t t' hi ha0 ha1 hacc hcnt ht ht'
  obtain ⟨f, hf⟩ := exec_answers hi
  obtain ⟨u, hu, h⟩ := hf s
  obtain rfl : u = t := Host.Outcome.next.inj (hu.symm.trans ht)
  obtain ⟨u', hu', h'⟩ := hf s'
  obtain rfl : u' = t' := Host.Outcome.next.inj (hu'.symm.trans ht')
  rw [← ha0, ← ha1, ← hacc] at h'
  have hr0 := h.r0_eq_or_kept h'
  have hcnt := h.recorded.satcnt_eq h'.recorded hcnt
  obtain ⟨-, hacc, ⟨-, hsat⟩, ⟨hcode, hdz, hce, -⟩, -⟩ := h
  obtain ⟨-, hacc', ⟨-, hsat'⟩, ⟨hcode', hdz', hce', -⟩, -⟩ := h'
  exact ⟨hacc.trans hacc'.symm, hcnt, hcode.trans hcode'.symm,
    ⟨_, _, _, ⟨hdz, hdz'⟩, ⟨hce, hce'⟩, hsat, hsat'⟩, hr0⟩

/-- Settles O18: the answer of `FX.MUL`, its result read back. -/
theorem fxMulFloorsAndSaturates : Obligations.FxMulFloorsAndSaturates := by
  refine ⟨rfl, fun s => ?_⟩
  obtain ⟨t, ht, hr0, hacc, hrec, hcompleted, hframe⟩ := execFxMul_answers s
  exact ⟨t, ht, (congrArg sx hr0).trans (sx_enc_limit32 _), hrec, hcompleted, hframe, hacc⟩

/-- Settles O19: the answer of `FX.DIV` for a zero divisor and for any other. -/
theorem fxDivTruncatesOrReportsZero : Obligations.FxDivTruncatesOrReportsZero := by
  refine ⟨rfl, fun s => ?_⟩
  obtain ⟨t, ht, h⟩ := execFxDiv_answers s
  refine ⟨t, ht, h.frame, ?_⟩
  unfold fxDivAnswer at h
  split at h <;> obtain ⟨hr0, hacc, hrec, hcompleted, -⟩ := h
  next h0 =>
    rw [if_pos h0]
    exact ⟨hacc, hr0, hrec, hcompleted⟩
  next h0 =>
    rw [if_neg h0]
    exact ⟨hacc, (congrArg sx hr0).trans (sx_enc_limit32 _), hrec, hcompleted⟩

/-- Settles O20: the answer of `FX.SAT` for an illegal width, and for a legal one, whose bound is a 32-bit number. -/
theorem fxSatClampsToTheWidth : Obligations.FxSatClampsToTheWidth := by
  refine ⟨rfl, fun s => ?_⟩
  obtain ⟨t, ht, h⟩ := execFxSat_answers s
  refine ⟨t, ht, h.frame, ?_⟩
  unfold fxSatAnswer at h
  split at h <;> obtain ⟨hr0, hacc, hrec, hcompleted, -⟩ := h
  next hbits =>
    rw [if_pos hbits]
    exact ⟨hacc, hr0, hrec, hcompleted⟩
  next hbits =>
    rw [if_neg hbits]
    obtain ⟨hm, hm'⟩ := width_bound (by omega : s.iface.a1.toNat ≤ 32)
    rw [← limit_eq_max_min hm, ← excess_symmetric hm]
    exact ⟨hacc, (congrArg sx hr0).trans (sx_enc_limit_symmetric hm hm' _), hrec, hcompleted⟩

/-- Settles O21: the answer of `FX.MAC`, the same saturated sum in `ACC` and `R0`. -/
theorem fxMacAccumulatesAndSaturatesOnce : Obligations.FxMacAccumulatesAndSaturatesOnce := by
  refine ⟨rfl, fun s => ?_⟩
  obtain ⟨t, ht, hr0, hacc, hrec, hcompleted, hframe⟩ := execFxMac_answers s
  exact ⟨t, ht, (congrArg sx hacc).trans (sx_enc_limit32 _), hr0.trans hacc.symm, hrec, hcompleted, hframe⟩

end Sys2Proof.Machine
end

section
/-! PROOFS. The configuring commands of the PID controller unit (41_pid.md R121 to R124): the gains and the output range they
store, and what they report. -/

namespace Sys2Proof.Machine

open Sys2Proof.Safety

variable (s : State)

/-- Storing three clamped gains, with a report where one was out of range (41_pid.md R121). -/
theorem applyGains_clamped (kp ki kd : Int) :
    let t := s.applyGains (gainClamp kp) (gainClamp ki) (gainClamp kd) (gainOob kp || gainOob ki || gainOob kd)
    let bad := outside kp || outside ki || outside kd
    sx t.pid.kp = limit32 kp ∧ sx t.pid.ki = limit32 ki ∧ sx t.pid.kd = limit32 kd ∧
    t.pid = { s.pid with kp := t.pid.kp, ki := t.pid.ki, kd := t.pid.kd, lastErr := 0, iacc := 0 } ∧
    Completed s t (if bad then .cfgerr else .ok) false bad false ∧
    Recorded s t 0 ∧ NoResultFrame s t ∧ t.sns = s.sns ∧ t.env = s.env := by
  simp only [gainOob_eq_outside]
  obtain ⟨hpid, hsns, henv, hframe, hrec, hcompleted⟩ := applyGains_spec s (gainClamp kp) (gainClamp ki) (gainClamp kd)
    (outside kp || outside ki || outside kd)
  rw [hpid]
  exact ⟨sx_enc_gainClamp kp, sx_enc_gainClamp ki, sx_enc_gainClamp kd, rfl, hcompleted, hrec, hframe, hsns, henv⟩

/-- Settles O25: the operands are the three gains. -/
theorem pidCfgClampsGainsAndClearsTransients : Obligations.PidCfgClampsGainsAndClearsTransients :=
  ⟨rfl, fun s => ⟨_, rfl, applyGains_clamped s (sx s.iface.a0) (sx s.iface.a1) (sx s.iface.a2)⟩⟩

/-- `PID.CFGSTD` stores the gains converted from the standard form (41_pid.md R123). -/
theorem execPidCfgstd_eq :
    let kp := limit32 (sx s.iface.a0)
    let kir := if sx s.iface.a1 = 0 then 0 else Int.tdiv (kp * 256) (sx s.iface.a1)
    let kdr := kp * sx s.iface.a2 / 256
    execPidCfgstd s = .next (s.applyGains (gainClamp (sx s.iface.a0)) (gainClamp kir) (gainClamp kdr)
      (gainOob (sx s.iface.a0) || gainOob kir || gainOob kdr)) := by
  have hclamp : limit32 (sx s.iface.a0) = gainClamp (sx s.iface.a0) := (gainClamp_eq _).symm
  simp only [hclamp, ← divraw_eq, ← mulraw_eq]
  rfl

/-- Settles O26: the operands are converted, and the gains then stored as those of `PID.CFG`. -/
theorem pidCfgstdConvertsStandardForm : Obligations.PidCfgstdConvertsStandardForm := by
  refine ⟨rfl, fun s => ⟨_, execPidCfgstd_eq s, ?_⟩⟩
  obtain ⟨hkp, hki, hkd, hpid, hcompleted, hrest⟩ := applyGains_clamped s (sx s.iface.a0) _ _
  exact ⟨⟨hkp, hki, hkd, hcompleted⟩, hpid, hrest⟩

/-- The state after `PID.SETOUT` with legal operands (41_pid.md R124). -/
def State.declareRange (bits uns : Nat) : State :=
  (s.setPid
    { s.pid with
      outBits := BitVec.ofNat 6 bits, outUns := uns == 1, outMin := enc (outBounds bits (uns == 1)).1,
      outMax := enc (outBounds bits (uns == 1)).2 }).complete .ok

/-- A legal width is stored whole. -/
theorem declareRange_outBits {bits uns : Nat} (hlegal : outLegal bits uns = true) :
    (s.declareRange bits uns).pid.outBits.toNat = bits := by
  rw [outLegal_iff] at hlegal
  exact Nat.mod_eq_of_lt (by omega)

/-- A legal range is the one R31 gives for its width and sign code. -/
theorem declareRange_bounds {bits uns : Nat} (hlegal : outLegal bits uns = true) :
    let x := (s.declareRange bits uns).pid
    (uns = 0 → sx x.outMax = 2 ^ (bits - 1) - 1 ∧ sx x.outMin = -(2 ^ (bits - 1) - 1)) ∧
    (uns = 1 → sx x.outMax = 2 ^ bits - 1 ∧ sx x.outMin = 0) := by
  have hrange : OutputRangeOk (s.declareRange bits uns).pid := outputRangeOk_of_outLegal hlegal rfl rfl rfl rfl
  unfold OutputRangeOk at hrange
  rw [declareRange_outBits s hlegal] at hrange
  constructor <;> rintro rfl
  · obtain ⟨-, -, hmax, hmin⟩ := hrange
    exact ⟨hmax, hmin.trans (congrArg Neg.neg hmax)⟩
  · obtain ⟨-, -, hmin, hmax⟩ := hrange
    exact ⟨hmax, hmin⟩

/-- Settles O27: legal operands declare the range, others end in a configuration error, and neither does more. -/
theorem pidSetoutDeclaresTheRangeOrKeepsIt : Obligations.PidSetoutDeclaresTheRangeOrKeepsIt := by
  refine ⟨rfl, fun s => ?_⟩
  have hiff := outLegal_iff s.iface.a0.toNat s.iface.a1.toNat
  by_cases hlegal : outLegal s.iface.a0.toNat s.iface.a1.toNat = true
  · refine ⟨s.declareRange s.iface.a0.toNat s.iface.a1.toNat, if_pos hlegal, .zero rfl rfl, rfl, rfl, rfl, ?_⟩
    obtain ⟨hsigned, hunsigned⟩ := declareRange_bounds s hlegal
    simp only [if_pos (hiff.mp hlegal)]
    exact ⟨declareRange_outBits s hlegal, rfl, hsigned, hunsigned, rfl, completed_of_onlyRecords (.refl s) rfl⟩
  · refine ⟨s.configError, if_neg hlegal, .zero rfl rfl, rfl, rfl, rfl, ?_⟩
    simp only [if_neg (mt hiff.mpr hlegal)]
    exact ⟨rfl, by simp [Completed]⟩

end Sys2Proof.Machine
end

section
/-! PROOFS. `PID.STEP` (41_pid.md R125 to R132): the arithmetic of a computing step as functions of the PID unit, the one answer
of the command in a new tick and in the same tick, and the statements read off it. -/

namespace Sys2Proof.Machine

open Sys2Proof.Safety

variable (s : State)

/-! ### One computing step, as functions of the PID unit (41_pid.md R128 to R131)

Each takes the unit before the step, the saturated error `e` and the saturated elapsed time `dt`. -/

/-- The proportional product before its saturation (R128). -/
def Pid.rawP (x : Pid) (e : Int) : Int := sx x.kp * e / 256

/-- The derivative rate before its saturation (R129). -/
def Pid.rawD (x : Pid) (e dt : Int) : Int :=
  let m := sx x.kd * limit32 (e - sx x.lastErr) / 256
  if dt > 1 then Int.tdiv m dt else m

/-- The accumulator with the error added, before its saturation (R130). -/
def Pid.rawAcc (x : Pid) (e dt : Int) : Int := sx x.iacc + (if dt > 1 then e * dt else e)

/-- The accumulator the integral term is made from (R130). -/
def Pid.accumulated (x : Pid) (e dt : Int) : Int := limit (-1073741823) 1073741823 (x.rawAcc e dt)

/-- The integral product before its saturation (R130). -/
def Pid.rawI (x : Pid) (e dt : Int) : Int := sx x.ki * x.accumulated e dt / 256

/-- A term from its gain and its product: a zero gain skips it (R132). -/
def gainTerm (gain : Word) (raw : Int) : Int := if sx gain = 0 then 0 else limit32 raw

/-- The exact sum of the three terms (R131). -/
def Pid.sum (x : Pid) (e dt : Int) : Int :=
  gainTerm x.kp (x.rawP e) + gainTerm x.ki (x.rawI e dt) + gainTerm x.kd (x.rawD e dt)

/-- The output (R131). -/
def Pid.output (x : Pid) (e dt : Int) : Int := limit (sx x.outMin) (sx x.outMax) (x.sum e dt)

/-- The unit after the step at time `now` (R130, R131). -/
def Pid.after (x : Pid) (e dt : Int) (now : Word) : Pid :=
  { x with
    lastErr := enc e, iacc := if sx x.ki = 0 then x.iacc else enc (x.accumulated e dt), lastTime := now,
    lastOut := enc (x.output e dt) }

/-- The saturation events of the three terms (R136). -/
def Pid.termEvents (x : Pid) (e dt : Int) : Nat :=
  (if sx x.kp = 0 then 0 else excess32 (x.rawP e)) +
  (if sx x.kd = 0 then 0 else excess32 (e - sx x.lastErr) + excess32 (x.rawD e dt)) +
  (if sx x.ki = 0 then 0 else excess (-1073741823) 1073741823 (x.rawAcc e dt) + excess32 (x.rawI e dt))

/-! ### The answer in a new tick and in the same tick -/

/-- The elapsed time before its saturation (R126). -/
def State.elapsed : Nat := (s.iface.a1 - s.pid.lastTime).toNat

/-- The error of the step that `s` is about to make (R125). -/
def State.stepError : Int := limit32 (sx s.iface.a0)

/-- The elapsed time of the step that `s` is about to make (R126). -/
def State.stepTime : Int := limit 0 65535 s.elapsed

/-- From `s` to `t` the PID unit made a computing step (R125 to R131, R136). -/
structure Computes (s t : State) : Prop where
  r0        : t.iface.r0 = enc (s.pid.output s.stepError s.stepTime)
  pid       : t.pid = s.pid.after s.stepError s.stepTime s.iface.a1
  recorded  : Recorded s t
                (excess32 (sx s.iface.a0) + excess 0 65535 s.elapsed + s.pid.termEvents s.stepError s.stepTime +
                  excess (sx s.pid.outMin) (sx s.pid.outMax) (s.pid.sum s.stepError s.stepTime))
  completed : CompletedOk s t
  frame     : ResultFrame s t
  sns       : t.sns = s.sns
  env       : t.env = s.env

/-- The three terms, one after the other: their sum, the accumulator and the events. -/
theorem terms_spec (u : State) (e dt : Int) :
    let p := termP e u
    let d := termD e dt p.2
    let i := termI e dt d.2
    p.1 + i.1 + d.1 = u.pid.sum e dt ∧
    i.2.pid = { u.pid with iacc := if sx u.pid.ki = 0 then u.pid.iacc else enc (u.pid.accumulated e dt) } ∧
    Recorded u i.2 (u.pid.termEvents e dt) := by
  dsimp only
  obtain ⟨hp, -, hpidP, -, -, hcntP⟩ := termP_spec e u
  generalize termP e u = p at *
  obtain ⟨hd, -, hpidD, -, -, hcntD⟩ := termD_spec e dt p.2
  rw [hpidP] at hd hcntD hpidD
  generalize termD e dt p.2 = d at *
  obtain ⟨hi, -, hpidI, -, -, hcntI⟩ := termI_spec e dt d.2
  rw [hpidD] at hi hpidI hcntI
  refine ⟨?_, hpidI, (hcntP.trans hcntD).trans hcntI⟩
  rw [hp, hi, hd]
  rfl

/-- The output ends a computing step, after the events and the accumulation of its terms (R131). -/
theorem finishStep_computes {v : State} (hframe : StepFrame s v)
    (hpid : v.pid =
      { s.pid with iacc := if sx s.pid.ki = 0 then s.pid.iacc else enc (s.pid.accumulated s.stepError s.stepTime) })
    (hcnt : Recorded s v
      (excess32 (sx s.iface.a0) + excess 0 65535 s.elapsed + s.pid.termEvents s.stepError s.stepTime)) :
    Computes s (v.finishStep s.stepError s.iface.a1 (s.pid.sum s.stepError s.stepTime)) := by
  obtain ⟨hpid', hr0, hsns, henv, hresult, hcompleted, hcnt'⟩ :=
    finishStep_spec v s.stepError (s.pid.sum s.stepError s.stepTime) s.iface.a1
  rw [hpid] at hpid' hr0 hcnt'
  exact ⟨hr0, hpid', hcnt.trans hcnt', hcompleted.after hframe.records, hresult.after hframe.records,
    hsns.trans hframe.sns, henv.trans hframe.env⟩

/-- `s` with the events of the error and of the elapsed time recorded, as the terms find it (R125, R126). -/
def State.operandsNoted : State :=
  (s.noteSat (-2147483647) 2147483647 (sx s.iface.a0)).noteSat 0 65535 s.elapsed

theorem operandsNoted_pid : s.operandsNoted.pid = s.pid := by simp [State.operandsNoted]

theorem operandsNoted_frame : StepFrame s s.operandsNoted := ((StepFrame.refl s).noteSat ..).noteSat ..

theorem operandsNoted_recorded :
    Recorded s s.operandsNoted (excess32 (sx s.iface.a0) + excess 0 65535 s.elapsed) :=
  (recorded_noteSat s ..).trans (recorded_noteSat ..)

/-- A step in a new tick computes (R125). -/
theorem execPidStep_computes (h : s.iface.a1 ≠ s.pid.lastTime) : ∃ t, exec .pidStep s = .next t ∧ Computes s t := by
  obtain ⟨hsum, hpid, hcnt⟩ := terms_spec s.operandsNoted s.stepError s.stepTime
  rw [operandsNoted_pid] at hsum hpid hcnt
  have hcomputes := finishStep_computes s ((operandsNoted_frame s).trans (terms_frame _ s.stepError s.stepTime)) hpid
    ((operandsNoted_recorded s).trans hcnt)
  rw [← hsum] at hcomputes
  exact ⟨_, (execPidStep_eq s).trans (if_neg (elapsed_ne_zero h)), hcomputes⟩

/-- Settles O28: no time has elapsed, so the command takes its same-tick branch. -/
theorem pidStepInTheSameTickReturnsTheLastOutput : Obligations.PidStepInTheSameTickReturnsTheLastOutput := by
  intro s h
  have h0 : (s.iface.a1 - s.pid.lastTime).toNat = 0 := by rw [h, BitVec.sub_self]; rfl
  exact (execPidStep_eq s).trans (if_pos h0)

theorem stepTime_eq_min : s.stepTime = min (s.elapsed : Int) 65535 := by
  have := clamp_eq_max_min (s.elapsed : Int) (show (0 : Int) ≤ 65535 by decide)
  unfold State.stepTime
  rw [← clamp_eq_limit]
  omega

theorem sx_enc_output (x : Pid) (e dt : Int) : sx (enc (x.output e dt)) = x.output e dt := sx_enc_limit ..

theorem sx_enc_accumulated (x : Pid) (e dt : Int) : sx (enc (x.accumulated e dt)) = x.accumulated e dt :=
  sx_enc_limit_symmetric (m := 1073741823) (by decide) (by decide) _

theorem sx_enc_stepError : sx (enc s.stepError) = s.stepError := sx_enc_limit32 _

/-- The accumulator after the step, read back: a zero gain keeps it (R130, R132). -/
theorem sx_after_iacc (x : Pid) (e dt : Int) (now : Word) :
    sx (x.after e dt now).iacc = if sx x.ki = 0 then sx x.iacc else x.accumulated e dt :=
  (apply_ite sx ..).trans (by rw [sx_enc_accumulated])

theorem Pid.output_bounds {x : Pid} (h : sx x.outMin ≤ sx x.outMax) (e dt : Int) :
    sx x.outMin ≤ x.output e dt ∧ x.output e dt ≤ sx x.outMax :=
  limit_bounds _ h

/-- Settles O29: the computing step, its stored values read back. -/
theorem pidStepComputesTheThreeTerms : Obligations.PidStepComputesTheThreeTerms := by
  refine ⟨rfl, fun s h => ?_⟩
  obtain ⟨t, ht, hr0, hpid, hrec, hcompleted, hframe, hsns, henv⟩ := execPidStep_computes s h
  refine ⟨t, ht, ?_⟩
  have hdt : s.stepTime = min ((s.iface.a1 - s.pid.lastTime).toNat : Int) 65535 := stepTime_eq_min s
  rw [← elapsed_toNat]
  simp only [← hdt]
  refine ⟨?r0, ?lastOut, ?lastErr, ?lastTime, ?iacc, ?kept, ?events, hcompleted, hframe, hsns, henv⟩
  case r0 => rw [hr0]; exact sx_enc_output _ _ _
  case lastOut => rw [hr0, hpid]; rfl
  case lastErr => rw [hpid]; exact sx_enc_stepError s
  case lastTime => rw [hpid]; rfl
  case iacc => rw [hpid]; exact sx_after_iacc _ _ _ _
  case kept => rw [hpid]; rfl
  case events =>
    simp only [Pid.termEvents, ← Nat.add_assoc] at hrec
    exact hrec

/-- Settles O30: the output is limited to the range, and read back as it was stored. -/
theorem pidStepOutputStaysInTheDeclaredRange : Obligations.PidStepOutputStaysInTheDeclaredRange := by
  intro s hrange h
  obtain ⟨t, ht, hcomputes⟩ := execPidStep_computes s h
  refine ⟨t, ht, ?_⟩
  rw [hcomputes.r0, sx_enc_output]
  exact Pid.output_bounds hrange _ _

/-! ### A second step in the same tick (41_pid.md R127, R133) -/

/-- After a step, computing or not, the unit holds its time and its result. -/
theorem execPidStep_settled :
    ∃ t, exec .pidStep s = .next t ∧ t.iface.a1 = t.pid.lastTime ∧ t.iface.r0 = t.pid.lastOut := by
  by_cases h : s.iface.a1 = s.pid.lastTime
  · exact ⟨_, pidStepInTheSameTickReturnsTheLastOutput s h, h, rfl⟩
  · obtain ⟨t, ht, hcomputes⟩ := execPidStep_computes s h
    obtain ⟨-, ha1, -⟩ := hcomputes.frame.operandsKept
    refine ⟨t, ht, ?_⟩
    rw [hcomputes.r0, hcomputes.pid]
    exact ⟨ha1, rfl⟩

/-- Settles O31: the second step finds the time of the first, whose result is the last output. -/
theorem pidStepIsIdempotentWithinATick : Obligations.PidStepIsIdempotentWithinATick := by
  intro s e
  obtain ⟨t, ht, htime, hresult⟩ := execPidStep_settled s
  exact ⟨t, _, ht, pidStepInTheSameTickReturnsTheLastOutput _ htime, hresult.symm, rfl, rfl⟩

/-! ### Another accumulator (41_pid.md R132) -/

/-- Two statuses with equal fields are equal. -/
theorem Status.ext_fields {x y : Status} (hcode : x.code = y.code) (hdz : x.dz = y.dz) (hce : x.ce = y.ce)
    (hsat : x.sat = y.sat) (hill : x.ill = y.ill) : x = y := by
  cases x; cases y; simp_all

variable {s} {t t' : State}

/-- A computing step is determined by the state before it. -/
theorem Computes.unique (h : Computes s t) (h' : Computes s t') : t = t' := by
  have hr0 : t.iface.r0 = t'.iface.r0 := h.r0.trans h'.r0.symm
  have hcnt : t.iface.satcnt = t'.iface.satcnt := h.recorded.satcnt_eq h'.recorded rfl
  have hstatus : t.iface.status = t'.iface.status := by
    obtain ⟨hcode, hdz, hce, hill⟩ := h.completed
    obtain ⟨hcode', hdz', hce', hill'⟩ := h'.completed
    obtain ⟨-, hsat⟩ := h.recorded
    obtain ⟨-, hsat'⟩ := h'.recorded
    exact Status.ext_fields (hcode.trans hcode'.symm) (hdz.trans hdz'.symm) (hce.trans hce'.symm)
      (hsat.trans hsat'.symm) (hill.trans hill'.symm)
  refine State.ext_parts ?_ (h.pid.trans h'.pid.symm) (h.sns.trans h'.sns.symm) (h.env.trans h'.env.symm)
  rw [h.frame, h'.frame, hr0, hcnt, hstatus]

section

variable {x : Pid} (hki : sx x.ki = 0) (w : Word) (e dt : Int)
include hki

/-- A zero integral gain skips the only term made from the accumulator. -/
theorem Pid.sum_of_ki_zero : Pid.sum { x with iacc := w } e dt = x.sum e dt := by
  simp only [Pid.sum, gainTerm, hki, if_true]
  rfl

theorem Pid.output_of_ki_zero : Pid.output { x with iacc := w } e dt = x.output e dt := by
  unfold Pid.output
  rw [Pid.sum_of_ki_zero hki]

theorem Pid.termEvents_of_ki_zero : Pid.termEvents { x with iacc := w } e dt = x.termEvents e dt := by
  simp only [Pid.termEvents, hki, if_true]
  rfl

theorem Pid.after_of_ki_zero (now : Word) :
    Pid.after { x with iacc := w } e dt now = { x.after e dt now with iacc := w } := by
  simp only [Pid.after, Pid.output_of_ki_zero hki, hki, if_true]

end

/-- The state with another accumulator in the PID unit. -/
def State.withIacc (s : State) (w : Word) : State := { s with pid := { s.pid with iacc := w } }

/-- With `KI = 0` a computing step is the same whatever the accumulator (R132). -/
theorem Computes.withIacc (h : Computes s t) (hki : sx s.pid.ki = 0) (w : Word) :
    Computes (s.withIacc w) (t.withIacc w) where
  r0 := h.r0.trans (congrArg enc (Pid.output_of_ki_zero hki ..).symm)
  pid := (congrArg (fun x : Pid => { x with iacc := w }) h.pid).trans (Pid.after_of_ki_zero hki ..).symm
  recorded := by
    have hrec := h.recorded
    rw [← Pid.termEvents_of_ki_zero hki w, ← Pid.sum_of_ki_zero hki w] at hrec
    exact hrec
  completed := h.completed
  frame := h.frame
  sns := h.sns
  env := h.env

/-- Settles O32: in the same tick both runs return the last output; otherwise both compute the same, and the accumulator is
kept. -/
theorem zeroIntegralGainIgnoresTheAccumulator : Obligations.ZeroIntegralGainIgnoresTheAccumulator := by
  intro s x hki
  have hki' : sx s.pid.ki = 0 := by rw [hki]; rfl
  by_cases h : s.iface.a1 = s.pid.lastTime
  · exact ⟨_, pidStepInTheSameTickReturnsTheLastOutput s h, rfl, pidStepInTheSameTickReturnsTheLastOutput _ h⟩
  · obtain ⟨t, ht, hcomputes⟩ := execPidStep_computes s h
    obtain ⟨u, hu, hcomputes'⟩ := execPidStep_computes (s.withIacc x) h
    obtain rfl := hcomputes'.unique (hcomputes.withIacc hki' x)
    refine ⟨t, ht, ?_, hu⟩
    rw [hcomputes.pid]
    exact if_pos hki'

end Sys2Proof.Machine
end

section
/-! PROOFS. Runs of `PID.STEP` (41_pid.md R133, R134): the signs of the three terms, the induction over ticks, and the two
statements about a sustained error. -/

namespace Sys2Proof.Machine

open Sys2Proof.Safety

variable {x : Pid} {e dt : Int}

/-! ### The signs of the terms (41_pid.md R128 to R130) -/

/-- The rescaled product of a nonnegative gain is on the side of 0 its factor is on. -/
theorem scaled_nonpos {g v : Int} (hg : 0 ≤ g) (hv : v ≤ 0) : g * v / 256 ≤ 0 := by
  have := mul_nonpos_of_nonneg_of_nonpos hg hv
  omega

theorem scaled_nonneg {g v : Int} (hg : 0 ≤ g) (hv : 0 ≤ v) : 0 ≤ g * v / 256 :=
  Int.ediv_nonneg (mul_nonneg hg hv) (by decide)

theorem limit32_nonpos {v : Int} (hv : v ≤ 0) : limit32 v ≤ 0 := by
  unfold limit32 limit
  split_ifs <;> omega

theorem limit32_nonneg {v : Int} (hv : 0 ≤ v) : 0 ≤ limit32 v := by
  unfold limit32 limit
  split_ifs <;> omega

theorem gainTerm_nonpos {gain : Word} {raw : Int} (h : raw ≤ 0) : gainTerm gain raw ≤ 0 := by
  unfold gainTerm
  split
  · exact le_rfl
  · exact limit32_nonpos h

theorem gainTerm_nonneg {gain : Word} {raw : Int} (h : 0 ≤ raw) : 0 ≤ gainTerm gain raw := by
  unfold gainTerm
  split
  · exact le_rfl
  · exact limit32_nonneg h

/-- An error that fell, or stayed, gives a derivative that is not positive. -/
theorem Pid.rawD_nonpos (hkd : 0 ≤ sx x.kd) (he : e ≤ sx x.lastErr) : x.rawD e dt ≤ 0 := by
  have hm := scaled_nonpos hkd (limit32_nonpos (sub_nonpos.mpr he))
  unfold Pid.rawD
  dsimp only
  split
  next hdt =>
    have hneg := Int.tdiv_nonneg (neg_nonneg.mpr hm) (by omega : 0 ≤ dt)
    rw [Int.neg_tdiv] at hneg
    exact neg_nonneg.mp hneg
  next => exact hm

/-- An error that rose, or stayed, gives a derivative that is not negative. -/
theorem Pid.rawD_nonneg (hkd : 0 ≤ sx x.kd) (he : sx x.lastErr ≤ e) : 0 ≤ x.rawD e dt := by
  have hm := scaled_nonneg hkd (limit32_nonneg (sub_nonneg.mpr he))
  unfold Pid.rawD
  dsimp only
  split
  next hdt => exact Int.tdiv_nonneg hm (by omega)
  next => exact hm

/-- The accumulator takes the error once for every millisecond. -/
theorem Pid.rawAcc_eq (hdt : 1 ≤ dt) : x.rawAcc e dt = sx x.iacc + e * dt := by
  unfold Pid.rawAcc
  split
  next => rfl
  next hone =>
    obtain rfl : dt = 1 := by omega
    rw [mul_one]

theorem Pid.accumulated_eq (hdt : 1 ≤ dt) :
    x.accumulated e dt = max (-1073741823) (min 1073741823 (sx x.iacc + e * dt)) := by
  rw [← Pid.rawAcc_eq hdt]
  exact limit_eq_max_min (by decide) _

/-! ### Runs of ticks (41_pid.md R133, R134) -/

/-- A step in a new tick computes from the operands it is given. -/
theorem stepWith_computes (s : State) (e : Word) {now : Word} (h : now ≠ s.pid.lastTime) :
    Computes (withStepOperands s e now) (stepWith s e now) := by
  obtain ⟨t, ht, hcomputes⟩ := execPidStep_computes (withStepOperands s e now) h
  unfold stepWith
  rw [ht]
  exact hcomputes

section

variable {d : Nat} (hd : 1 ≤ d) (hd' : d ≤ 65535) (e : Word)
include hd hd'

/-- One tick of `d` milliseconds: its result, and the unit after it. -/
theorem tick_spec (s : State) :
    let t := stepWith s e (s.pid.lastTime + BitVec.ofNat 32 d)
    t.iface.r0 = enc (s.pid.output (limit32 (sx e)) d) ∧ ∃ now, t.pid = s.pid.after (limit32 (sx e)) d now := by
  have hd32 : (s.pid.lastTime + BitVec.ofNat 32 d - s.pid.lastTime).toNat = d := by
    rw [add_sub_cancel_left]
    exact Nat.mod_eq_of_lt (by omega)
  have hne : s.pid.lastTime + BitVec.ofNat 32 d ≠ s.pid.lastTime := by
    intro heq
    rw [heq, BitVec.sub_self] at hd32
    change 0 = d at hd32
    omega
  have htime : (withStepOperands s e (s.pid.lastTime + BitVec.ofNat 32 d)).stepTime = d := by
    have helapsed : (withStepOperands s e (s.pid.lastTime + BitVec.ofNat 32 d)).elapsed = d := hd32
    rw [stepTime_eq_min, helapsed]
    omega
  obtain ⟨hr0, hpid, -⟩ := stepWith_computes s e hne
  rw [htime] at hr0 hpid
  exact ⟨hr0, _, hpid⟩

/-- What holds of the unit at first and from one tick to the next holds after every number of ticks. -/
theorem ticks_induction (s : State) (P : Nat → Pid → Prop) (h0 : P 0 s.pid)
    (hstep : ∀ n x now, P n x → P (n + 1) (x.after (limit32 (sx e)) d now)) (n : Nat) : P n (ticks e d n s).pid := by
  induction n with
  | zero => exact h0
  | succ n ih =>
    obtain ⟨-, now, hpid⟩ := tick_spec hd hd' e (ticks e d n s)
    exact hpid ▸ hstep n _ now ih

/-- The result of the last tick is the output of the unit before it. -/
theorem ticks_succ_r0 (s : State) (n : Nat) :
    sx (ticks e d (n + 1) s).iface.r0 = (ticks e d n s).pid.output (limit32 (sx e)) d := by
  obtain ⟨hr0, -⟩ := tick_spec hd hd' e (ticks e d n s)
  exact (congrArg sx hr0).trans (sx_enc_output ..)

end

/-! ### The largest error at every millisecond (41_pid.md R133) -/

/-- All gains 1.0, the default output range, and an accumulator that is not negative. -/
structure UnitGains (x : Pid) : Prop where
  kp     : sx x.kp = 256
  ki     : sx x.ki = 256
  kd     : sx x.kd = 256
  iacc   : 0 ≤ sx x.iacc
  outMin : sx x.outMin = -32767
  outMax : sx x.outMax = 32767

/-- The proportional term alone is the largest one, and no other term is negative. -/
theorem UnitGains.output_eq (h : UnitGains x) : x.output 2147483647 1 = 32767 := by
  obtain ⟨hkp, hki, hkd, hiacc, hmin, hmax⟩ := h
  have hp : gainTerm x.kp (x.rawP 2147483647) = 2147483647 := by
    unfold gainTerm Pid.rawP
    rw [hkp]
    decide
  have hacc : 0 ≤ x.accumulated 2147483647 1 := by
    rw [Pid.accumulated_eq le_rfl]
    omega
  have hi : 0 ≤ gainTerm x.ki (x.rawI 2147483647 1) := gainTerm_nonneg (scaled_nonneg (by omega) hacc)
  have hd : 0 ≤ gainTerm x.kd (x.rawD 2147483647 1) := by
    have := sx_bounds x.lastErr
    exact gainTerm_nonneg (Pid.rawD_nonneg (by omega) (by omega))
  unfold Pid.output Pid.sum limit
  rw [hp, hmin, hmax, if_neg (by omega), if_pos (by omega)]

theorem UnitGains.after (h : UnitGains x) (now : Word) : UnitGains (x.after 2147483647 1 now) := by
  obtain ⟨hkp, hki, hkd, hiacc, hmin, hmax⟩ := h
  refine ⟨hkp, hki, hkd, ?_, hmin, hmax⟩
  rw [sx_after_iacc, if_neg (by omega), Pid.accumulated_eq le_rfl]
  omega

/-- Settles O34: the unit keeps its gains and a nonnegative accumulator over every tick. -/
theorem sustainedLargestErrorPinsTheOutput : Obligations.SustainedLargestErrorPinsTheOutput := by
  intro s n hkp hki hkd hiacc hmin hmax hn
  obtain ⟨n, rfl⟩ := Nat.exists_eq_add_of_le' hn
  have he : limit32 (sx 0x7FFFFFFF) = 2147483647 := by decide
  have hunit := ticks_induction le_rfl (by decide) 0x7FFFFFFF s (fun _ => UnitGains) ⟨hkp, hki, hkd, hiacc, hmin, hmax⟩
    (fun _ _ now h => he ▸ h.after now) n
  rw [ticks_succ_r0 le_rfl (by decide), he]
  exact hunit.output_eq

/-! ### Recovery from windup (41_pid.md R134) -/

/-- With nonnegative gains, no term of an error below 0 is positive once the accumulator is used up and the error does not
rise. -/
theorem Pid.output_nonpos (hkp : 0 ≤ sx x.kp) (hki : 0 ≤ sx x.ki) (hkd : 0 ≤ sx x.kd) (hmin : sx x.outMin ≤ 0)
    (he : e ≤ 0) (hlast : e ≤ sx x.lastErr) (hacc : x.accumulated e dt ≤ 0) :
    x.output e dt ≤ 0 := by
  have hp : gainTerm x.kp (x.rawP e) ≤ 0 := gainTerm_nonpos (scaled_nonpos hkp he)
  have hi : gainTerm x.ki (x.rawI e dt) ≤ 0 := gainTerm_nonpos (scaled_nonpos hki hacc)
  have hd : gainTerm x.kd (x.rawD e dt) ≤ 0 := gainTerm_nonpos (Pid.rawD_nonpos hkd hlast)
  unfold Pid.output Pid.sum limit
  split_ifs <;> omega

/-- The unit `x` after `n` ticks of error `-E` that each take `q` from the accumulator, from the unit `x₀`. -/
structure Drained (x₀ : Pid) (E q : Int) (n : Nat) (x : Pid) : Prop where
  kp      : x.kp = x₀.kp
  ki      : x.ki = x₀.ki
  kd      : x.kd = x₀.kd
  outMin  : x.outMin = x₀.outMin
  outMax  : x.outMax = x₀.outMax
  iacc    : sx x.iacc ≤ max (-1073741823) (sx x₀.iacc - n * q)
  lastErr : sx x.lastErr = if n = 0 then sx x₀.lastErr else -E

variable {x₀ : Pid} {E : Int} {n : Nat}

/-- The accumulator after one more tick. -/
theorem Drained.accumulated_le (h : Drained x₀ E (E * dt) n x) (hdt : 1 ≤ dt) (hE : 0 < E) :
    x.accumulated (-E) dt ≤ max (-1073741823) (sx x₀.iacc - (n + 1 : Nat) * (E * dt)) := by
  have hiacc := h.iacc
  have hpos : 0 < E * dt := mul_pos hE (by omega)
  have hnext : ((n + 1 : Nat) : Int) * (E * dt) = n * (E * dt) + E * dt := by push_cast; ring
  rw [Pid.accumulated_eq hdt, neg_mul, hnext]
  omega

theorem Drained.after (h : Drained x₀ E (E * dt) n x) (hki : sx x₀.ki ≠ 0) (hdt : 1 ≤ dt) (hE : 0 < E)
    (hE' : E ≤ 2147483647) (now : Word) : Drained x₀ E (E * dt) (n + 1) (x.after (-E) dt now) := by
  have hacc := h.accumulated_le hdt hE
  obtain ⟨hkp, hki', hkd, hmin, hmax, -, -⟩ := h
  refine ⟨hkp, hki', hkd, hmin, hmax, ?_, ?_⟩
  · rwa [sx_after_iacc, hki', if_neg hki]
  · exact sx_enc (by omega) (by omega)

/-- Settles O33: the accumulator falls by `E * dt` each tick, so the last one finds it used up. -/
theorem integralWindupRecoversInBoundedSteps : Obligations.IntegralWindupRecoversInBoundedSteps := by
  intro s E dt n hkp hki hkd _ _ hmin hmax hE hE' hdt hdt' hn hcover hlast
  obtain ⟨n, rfl⟩ := Nat.exists_eq_add_of_le' hn
  have he : limit32 (sx (enc (-E))) = -E := by
    rw [sx_enc (by omega) (by omega)]
    exact clamp_of_mem (by omega) (by omega)
  have hdt1 : (1 : Int) ≤ dt := by omega
  have hdrained := ticks_induction hdt hdt' (enc (-E)) s (Drained s.pid E (E * dt))
    ⟨rfl, rfl, rfl, rfl, rfl, by omega, rfl⟩ (fun _ _ now h => by rw [he]; exact h.after hki.ne' hdt1 hE hE' now) n
  rw [ticks_succ_r0 hdt hdt', he]
  have hacc := hdrained.accumulated_le hdt1 hE
  obtain ⟨hkp', hki', hkd', hmin', hmax', -, hlast'⟩ := hdrained
  rw [← hkp'] at hkp
  rw [← hki'] at hki
  rw [← hkd'] at hkd
  rw [← hmin'] at hmin ⊢
  rw [← hmax'] at hmax
  obtain ⟨hlower, -⟩ := Pid.output_bounds (hmin.trans hmax) (-E) dt
  refine ⟨Pid.output_nonpos hkp hki.le hkd hmin (by omega) ?_ (by omega), hlower⟩
  rw [hlast']
  split <;> omega

end Sys2Proof.Machine
end

section
/-! PROOFS. The sensor array commands but `SNS.POS` (42_sensor.md R152 to R167, R175, R176): the bands, the calibration
pass and runs of passes, the median bucket, the mirrored coefficients. -/

namespace Sys2Proof.Safety

open Sys2Proof.Machine

/-! ### Antisymmetric coefficients (10_state.md R40) -/

variable {x : Sns}

/-- Mirrored channels carry opposite coefficients. -/
theorem Antisymmetric.sx_rev (h : Antisymmetric x) (i : Fin 8) : sx x.coef[i.rev] = -sx x.coef[i] := by
  have hlower (k : Fin 4) : (⟨3 - k.val, by omega⟩ : Fin 8).rev = ⟨4 + k.val, by omega⟩ := by
    ext
    simp only [Fin.val_rev]
    omega
  obtain ⟨k, rfl | rfl⟩ := exists_pair i
  · rw [hlower, h k, neg_neg]
  · rw [← hlower, Fin.rev_rev, hlower, h k]

/-- Mirroring the weights negates a sum weighted by the coefficients. -/
theorem Antisymmetric.sum_rev (h : Antisymmetric x) (n : Fin 8 → Int) :
    ∑ i : Fin 8, n i.rev * sx x.coef[i] = -∑ i : Fin 8, n i * sx x.coef[i] := by
  rw [← Equiv.sum_comp Fin.revPerm, ← Finset.sum_neg_distrib]
  refine Finset.sum_congr rfl fun i _ => ?_
  rw [Fin.revPerm_apply, Fin.rev_rev, h.sx_rev, mul_neg]

/-! ### Recorded events (10_state.md R27) -/

/-- A stretch without events before another adds none. -/
theorem Recorded.after {s t u : State} {k : Nat} (hst : Recorded s t 0) (htu : Recorded t u k) : Recorded s u k := by
  rw [← Nat.zero_add k]
  exact hst.trans htu

end Sys2Proof.Safety

namespace Sys2Proof.Machine

open Sys2Proof.Safety

variable (s : State)

/-! ### Resetting and reading (42_sensor.md R151 to R153) -/

theorem readAll_recorded : Recorded s s.readAll 0 := by
  have h := readAll_iface s
  exact .zero (congrArg Iface.satcnt h) (congrArg (fun x => x.status.sat) h)

/-- Settles O36: the reset replaces the calibrated fields by constants, and nothing else. -/
theorem snsResetDiscardsCalibration : Obligations.SnsResetDiscardsCalibration :=
  ⟨rfl, fun s => ⟨_, rfl, fun i => by simp [Sns.discard], fun b => by simp [Sns.discard], rfl, rfl, rfl,
    completed_of_onlyRecords (.refl s) rfl, .zero rfl rfl, rfl, rfl, rfl⟩⟩

/-- Settles O37: the command is the read-all procedure, which touches neither the interface nor the PID unit. -/
theorem snsReadStoresTheSamples : Obligations.SnsReadStoresTheSamples := by
  refine ⟨rfl, fun s => ⟨_, rfl, fun i => ?_, ?_, ?_, readAll_env s,
    completed_of_onlyRecords (onlyRecords_readAll s) rfl, (readAll_recorded s).congr rfl rfl, .after (onlyRecords_readAll s) rfl, readAll_pid s⟩⟩
  · rw [complete_sns, readAll_raw]
    exact Vector.getElem_ofFn _
  · rw [complete_sns, readAll_sns]
  · rw [complete_sns, readAll_sns]

/-! ### The bands (42_sensor.md R175, R176) -/

theorem boolWord_eq_ite {b : Bool} {p : Prop} [Decidable p] (h : b = true ↔ p) :
    boolWord b = if p then 1 else 0 := by
  unfold boolWord
  exact if_congr h rfl rfl

theorem inBand_iff (lo hi v : Byte) : inBand lo hi v = true ↔ lo ≤ v ∧ v ≤ hi := by
  simp [inBand, BitVec.le_def]

/-- Settles O48: the command stores whether every last sample is inside the floor band. -/
theorem snsOnfloorJudgesTheFloorBand : Obligations.SnsOnfloorJudgesTheFloorBand := by
  refine ⟨rfl, fun s => ?_⟩
  rw [← boolWord_eq_ite (b := (List.finRange Config.N).all fun i => inBand s.sns.floorLo s.sns.floorHi s.sns.raw[i])
    (by simp [inBand_iff])]
  rfl

/-- Settles O49: a sample outside the line band is below its lower bound or above its upper one. -/
theorem snsOnlineJudgesTheLineBand : Obligations.SnsOnlineJudgesTheLineBand := by
  refine ⟨rfl, fun s => ?_⟩
  have houtside (v : Byte) : (!inBand s.sns.lineLo s.sns.lineHi v) = true ↔ v < s.sns.lineLo ∨ s.sns.lineHi < v := by
    rw [Bool.not_eq_true', ← Bool.not_eq_true, inBand_iff, not_and_or, BitVec.not_le, BitVec.not_le]
  rw [← boolWord_eq_ite (b := (List.finRange Config.N).any fun i => !inBand s.sns.lineLo s.sns.lineHi s.sns.raw[i])
    (by simp only [List.any_eq_true, houtside, List.mem_finRange, true_and])]
  rfl

/-! ### The calibration pass (42_sensor.md R154 to R157) -/

/-- The state of a calibration pass with the samples read and the bounds widened, before the histogram is fed. -/
def State.widened : State := s.readAll.setSns s.readAll.sns.widen

theorem widened_sns :
    s.widened.sns = ({ s.sns with raw := Vector.ofFn fun i => s.incoming i, chsel := 7 } : Sns).widen := by
  simp [State.widened]

theorem widened_raw (i : Fin 8) : s.widened.sns.raw[i] = s.incoming i := by
  rw [widened_sns]
  exact Vector.getElem_ofFn _

theorem onlyRecords_widened : OnlyRecords s s.widened := (onlyRecords_readAll s).trans rfl

theorem widened_recorded : Recorded s s.widened 0 := (readAll_recorded s).congr rfl rfl

/-- A channel's bounds after the pass, and the range between them (42_sensor.md R154, R155). -/
theorem widened_bounds (i : Fin 8) :
    s.widened.sns.min[i].toNat = min s.sns.min[i].toNat (s.incoming i).toNat ∧
    s.widened.sns.max[i].toNat = max s.sns.max[i].toNat (s.incoming i).toNat ∧
    s.widened.sns.range[i].toNat = widenedRange s i := by
  have h := widen_channel { s.sns with raw := Vector.ofFn fun i => s.incoming i, chsel := 7 } i
  rw [← widened_sns] at h
  simpa [widenedRange] using h

/-- The pass is valid when every widened range exceeds the threshold (42_sensor.md R156). -/
theorem widened_isValid : s.widened.sns.isValid = true ↔ validAfter s := by
  have hvthr : s.widened.sns.vthr = s.sns.vthr := by rw [widened_sns]; rfl
  rw [isValid_iff, hvthr]
  exact forall_congr' fun i => by rw [(widened_bounds s i).2.2]

/-- The bucket counts after a pass: on a valid one each bucket takes its samples and every lost increment is an event,
on another they stay (42_sensor.md R157). -/
theorem feedHistogram_widened (valid : Bool) :
    let c := s.widened.feedHistogram valid
    (valid = true →
      (∀ b : Fin 16, c.sns.hist[b].toNat = min (s.sns.hist[b].toNat + bucketCount s b) 65535) ∧
      Recorded s c (∑ b : Fin 16, (s.sns.hist[b].toNat + bucketCount s b - 65535))) ∧
    (valid = false → c.sns.hist = s.sns.hist ∧ Recorded s c 0) := by
  have hhist : s.widened.sns.hist = s.sns.hist := by rw [widened_sns]; rfl
  cases valid with
  | false => exact ⟨nofun, fun _ => ⟨hhist, widened_recorded s⟩⟩
  | true =>
    obtain ⟨⟨h, hsns, hcount⟩, -, -, -, hrec⟩ := countSamples_spec s.widened
    simp only [widened_raw, hhist] at hcount hrec
    refine ⟨fun _ => ⟨fun b => ?_, ?_⟩, nofun⟩
    · rw [State.feedHistogram, if_pos rfl, hsns]
      exact hcount b
    · exact (widened_recorded s).after hrec

/-- The end of a calibration pass: its verdict stored in `VALID` and `R0` (42_sensor.md R154). -/
def State.endPass (valid : Bool) : State :=
  ((s.setSns { s.sns with valid := valid, phase := .calibrating }).setR0 (boolWord valid)).complete .ok

theorem execSnsCal_widened :
    execSnsCal s = .next ((s.widened.feedHistogram s.widened.sns.isValid).endPass s.widened.sns.isValid) := rfl

/-- Settles O38: the samples are read and the bounds widened, and the histogram is then fed on a valid pass. -/
theorem snsCalWidensAndFeedsTheHistogram : Obligations.SnsCalWidensAndFeedsTheHistogram := by
  refine ⟨rfl, fun s => ⟨_, execSnsCal_widened s, ?_⟩⟩
  have hvalid := widened_isValid s
  generalize s.widened.sns.isValid = valid at *
  obtain ⟨⟨h, hsns⟩, hpid, henv, hrec⟩ := feedHistogram_spec s.widened valid
  obtain ⟨hfed, hkept⟩ := feedHistogram_widened s valid
  have honly := (onlyRecords_widened s).trans hrec
  have hend : ((s.widened.feedHistogram valid).endPass valid).sns =
      { s.widened.sns with hist := h, valid := valid, phase := .calibrating } := by
    rw [State.endPass, complete_sns, setR0_sns, setSns_sns, hsns]
  rw [hend]
  rw [hsns] at hfed hkept
  refine ⟨fun i => ⟨widened_raw s i, widened_bounds s i⟩, hvalid, rfl, rfl, ?chsel, fun hv => ?fed, fun hv => ?kept,
    ?frame, ?env, completed_of_onlyRecords honly rfl, .after honly rfl, ?pid⟩
  case chsel => rw [widened_sns]; rfl
  case fed => exact ⟨(hfed hv).1, (hfed hv).2.congr rfl rfl⟩
  case kept => exact ⟨(hkept hv).1, (hkept hv).2.congr rfl rfl⟩
  case frame => rw [widened_sns]; rfl
  case env => exact henv.trans (readAll_env s)
  case pid => exact hpid.trans (readAll_pid s)

/-! ### The median bucket (42_sensor.md R161 to R163) -/

/-- Settles O39: the polarity is decided by the median bucket. -/
theorem snsPolFindsTheMedianBucket : Obligations.SnsPolFindsTheMedianBucket := by
  refine ⟨rfl, fun s => ⟨_, execSnsPol_eq s, ?_⟩⟩
  obtain ⟨hlt, hhalf, hfirst⟩ := center_counts s.sns
  generalize center s.sns.counts = c at *
  exact ⟨⟨c, hlt, hhalf, hfirst, rfl⟩, rfl, rfl, completed_of_onlyRecords (.refl s) rfl, .zero rfl rfl, rfl, rfl, rfl⟩

theorem cumulative_mono (x : Sns) {c d : Nat} (h : c ≤ d) : cumulative x c ≤ cumulative x d := by
  refine Finset.sum_le_sum fun b _ => ?_
  split_ifs <;> omega

/-- The median bucket is in the lower half exactly when the lower half holds half the mass. -/
theorem center_lt_iff (x : Sns) : center x.counts < 8 ↔ cumulative x 15 ≤ 2 * cumulative x 7 := by
  obtain ⟨-, hhalf, hfirst⟩ := center_counts x
  constructor
  · intro hlower
    have := cumulative_mono x (by omega : center x.counts ≤ 7)
    omega
  · intro hmass
    by_contra hupper
    have := hfirst 7 (by omega)
    omega

theorem cumulative_below {x : Sns} (h : ∀ b : Fin 16, 8 ≤ b.val → x.hist[b] = 0) :
    cumulative x 15 = cumulative x 7 := by
  refine Finset.sum_congr rfl fun b _ => ?_
  by_cases hb : b.val ≤ 7
  · rw [if_pos hb, if_pos (by omega)]
  · rw [if_neg hb, if_pos (by omega), h b (by omega)]
    rfl

theorem cumulative_above {x : Sns} (h : ∀ b : Fin 16, b.val < 8 → x.hist[b] = 0) : cumulative x 7 = 0 := by
  refine Finset.sum_eq_zero fun b _ => ?_
  split_ifs with hb
  · rw [h b (by omega)]
    rfl
  · rfl

theorem cumulative_pos {x : Sns} (h : ∃ b : Fin 16, x.hist[b] ≠ 0) : 0 < cumulative x 15 := by
  obtain ⟨b, hb⟩ := h
  refine Finset.sum_pos' (fun _ _ => Nat.zero_le _) ⟨b, Finset.mem_univ b, ?_⟩
  rw [if_pos (by omega), Nat.pos_iff_ne_zero]
  exact fun h0 => hb (BitVec.eq_of_toNat_eq h0)

theorem cumulative_uniform {x : Sns} (h : ∀ b c : Fin 16, x.hist[b] = x.hist[c]) :
    cumulative x 15 = 2 * cumulative x 7 := by
  simp only [cumulative, h _ 0, ← Finset.sum_filter, Finset.sum_const, smul_eq_mul]
  rw [← mul_assoc]
  rfl

/-- Settles O40: each named case compares the mass of the lower half with the total. -/
theorem snsPolDecidesTheNamedCases : Obligations.SnsPolDecidesTheNamedCases := by
  intro s t h
  obtain rfl : _ = t := Host.Outcome.next.inj ((execSnsPol_eq s).symm.trans h)
  simp only [complete_sns, setR0_sns, setSns_sns, decide_eq_true_eq, decide_eq_false_iff_not, center_lt_iff]
  refine ⟨fun hbelow => ?_, fun habove hmass => ?_, fun huniform => ?_⟩
  · rw [cumulative_below hbelow]
    omega
  · rw [cumulative_above habove]
    have := cumulative_pos hmass
    omega
  · exact (cumulative_uniform huniform).le

/-! ### The coefficients (42_sensor.md R166, R167) -/

/-- Settles O41: the four pairs of the saturated factor, each read back as it was stored. -/
theorem snsCoeffGeneratesMirroredCoefficients : Obligations.SnsCoeffGeneratesMirroredCoefficients := by
  refine ⟨rfl, fun s => ⟨_, execSnsCoeff_eq s, ?_⟩⟩
  obtain ⟨⟨v, hsns, hpairs⟩, hpid, henv, hrec, hevents⟩ :=
    coeffLoop_spec (limit32 (sx s.iface.a0)) (s.noteSat (-2147483647) 2147483647 (sx s.iface.a0))
  have honly := (onlyRecords_noteSat s _ _ _).trans hrec
  rw [noteSat_sns] at hsns
  rw [complete_sns, setPhase_sns, hsns]
  refine ⟨⟨fun k => ?_, ?_⟩, rfl, completed_of_onlyRecords honly rfl, .after honly rfl, hpid.trans (noteSat_pid ..),
    henv.trans (noteSat_env ..)⟩
  · obtain ⟨hlower, hupper⟩ := hpairs k
    have := coefficient_bounds (limit32 (sx s.iface.a0)) k
    exact ⟨(congrArg sx hlower).trans (sx_enc (by omega) (by omega)),
      (congrArg sx hupper).trans (sx_enc (by omega) (by omega))⟩
  · exact ((recorded_noteSat s _ _ _).trans hevents).congr rfl rfl

/-- Settles O42: the coefficients stand in mirrored pairs, whose sums are 0. -/
theorem snsCoeffIsAntisymmetric : Obligations.SnsCoeffIsAntisymmetric := by
  intro s t h
  obtain ⟨-, hspec⟩ := snsCoeffGeneratesMirroredCoefficients
  obtain ⟨u, hu, ⟨hpairs, -⟩, -⟩ := hspec s
  obtain rfl : u = t := Host.Outcome.next.inj (hu.symm.trans h)
  have hanti : Antisymmetric u.sns := fun k => by rw [(hpairs k).1, (hpairs k).2]
  refine ⟨hanti, fun i => ?_, ?_⟩
  · obtain ⟨k, rfl | rfl⟩ := exists_pair i
    · have := coefficient_bounds (limit32 (sx s.iface.a0)) k
      rw [Within, (hpairs k).1]
      omega
    · rw [Within, (hpairs k).2]
      exact coefficient_bounds _ k
  · have hsum := hanti.sum_rev fun _ => 1
    simp only [one_mul] at hsum
    omega

/-! ### Runs of calibration passes (42_sensor.md R155) -/

/-- The samples put in front are the ones a pass reads. -/
theorem incoming_withSamples (v : Vector Byte 8) (i : Fin 8) : (withSamples s v).incoming i = v[i] := by
  have hlen : i.val < v.toList.length := by simp
  simp [State.incoming, withSamples, List.getElem?_append_left hlen]

/-- A channel's bounds after one pass that reads `v`. -/
theorem calWith_bounds (v : Vector Byte 8) (i : Fin 8) :
    (calWith s v).sns.min[i].toNat = min s.sns.min[i].toNat v[i].toNat ∧
    (calWith s v).sns.max[i].toNat = max s.sns.max[i].toNat v[i].toNat ∧
    (calWith s v).sns.range[i].toNat = max s.sns.max[i].toNat v[i].toNat - min s.sns.min[i].toNat v[i].toNat := by
  obtain ⟨-, hspec⟩ := snsCalWidensAndFeedsTheHistogram
  obtain ⟨t, ht, hbounds, -⟩ := hspec (withSamples s v)
  have hcal : calWith s v = t := by rw [calWith, ht]
  obtain ⟨-, h⟩ := hbounds i
  rw [widenedRange, incoming_withSamples] at h
  rw [hcal]
  exact h

/-- The bounds after a run of passes are those before it, folded over the samples read. -/
theorem calWith_foldl_bounds (passes : List (Vector Byte 8)) (i : Fin 8) :
    (passes.foldl calWith s).sns.min[i].toNat = (passes.map fun v => v[i].toNat).foldl min s.sns.min[i].toNat ∧
    (passes.foldl calWith s).sns.max[i].toNat = (passes.map fun v => v[i].toNat).foldl max s.sns.max[i].toNat := by
  induction passes generalizing s with
  | nil => exact ⟨rfl, rfl⟩
  | cons v passes ih =>
    obtain ⟨hmin, hmax, -⟩ := calWith_bounds s v i
    rw [List.map_cons, List.foldl_cons, List.foldl_cons, List.foldl_cons, ← hmin, ← hmax]
    exact ih (calWith s v)

/-- After at least one pass a channel's bounds are in order, with the range between them. -/
theorem calWith_foldl_range {passes : List (Vector Byte 8)} (h : passes ≠ []) (i : Fin 8) :
    let x := (passes.foldl calWith s).sns
    x.range[i].toNat = x.max[i].toNat - x.min[i].toNat ∧ x.min[i].toNat ≤ x.max[i].toNat := by
  dsimp only
  obtain ⟨first, v, rfl⟩ := List.eq_nil_or_concat passes |>.resolve_left h
  obtain ⟨hmin, hmax, hrange⟩ := calWith_bounds (first.foldl calWith s) v i
  rw [List.concat_eq_append, List.foldl_append, List.foldl_cons, List.foldl_nil, hmin, hmax, hrange]
  omega

/-- Settles O47: from bounds 255 and 0, an induction over the passes. -/
theorem calibrationBoundsAreTheExtremeSamples : Obligations.CalibrationBoundsAreTheExtremeSamples := by
  intro r passes hr t i
  have hstart : r.sns.min[i] = 255 ∧ r.sns.max[i] = 0 := by
    obtain rfl | ⟨s, hs⟩ := hr
    · simp [State.reset, Sns.reset]
    · have hreset : r.sns = s.sns.discard := (effect_of_exec hs).sns
      simp [hreset, Sns.discard]
  obtain ⟨hmin, hmax⟩ := calWith_foldl_bounds r passes i
  rw [hstart.1] at hmin
  rw [hstart.2] at hmax
  exact ⟨hmin, hmax, fun h => calWith_foldl_range r h i⟩

end Sys2Proof.Machine
end

section
/-! PROOFS. `SNS.POS` (42_sensor.md R168 to R174): the normalized values and the position as functions of the state before,
the command's answer, the floor formula, mirrored patterns and the bound of the position. -/

namespace Sys2Proof.Machine

open Sys2Proof.Safety

variable (s : State)

/-! ### The answer of the command (42_sensor.md R168 to R173) -/

theorem byte_toNat_eq_zero (b : Byte) : b.toNat = 0 ↔ b = 0 :=
  BitVec.toNat_inj (y := 0#8)

/-- The samples just read are normalized to the values the statements give. -/
theorem readAll_normValue (i : Fin 8) : s.readAll.sns.normValue i = normalized s i := by
  simp only [readAll_sns, Sns.normValue, normalized, byte_toNat_eq_zero, scaled]
  simp [normalize, clamp_eq_limit, tdiv]

/-- The events of normalizing the samples just read. -/
theorem readAll_normExcess (i : Fin 8) :
    s.readAll.sns.normExcess i = if s.sns.range[i].toNat = 0 then 0 else excess 0 255 (scaled s i) := by
  simp only [readAll_sns, Sns.normExcess, byte_toNat_eq_zero, scaled]
  simp [normalize, clamp_eq_limit, tdiv]

/-- What reading and normalizing every channel makes of the sensor unit (42_sensor.md R168). -/
theorem normAll_readAll_sns :
    s.readAll.normAll.sns =
      { s.sns with
        raw := Vector.ofFn fun i => s.incoming i, chsel := 7,
        norm := Vector.ofFn fun i => BitVec.ofInt 8 (normalized s i) } := by
  obtain ⟨hsns, -⟩ := normAll_spec s.readAll
  have hnorm : s.readAll.sns.normValue = normalized s := funext (readAll_normValue s)
  rw [hsns, hnorm, readAll_sns]

/-- The stored normalized values are read back. -/
theorem normAll_readAll_norm (i : Fin 8) : (s.readAll.normAll.sns.norm[i].toNat : Int) = normalized s i := by
  have hread := normValue_read s.readAll.sns i
  rw [readAll_normValue] at hread
  rw [normAll_readAll_sns]
  simpa using hread

/-- The position is weighed from the normalized values and the registers the command keeps. -/
theorem normAll_readAll_positionSum : s.readAll.normAll.sns.positionSum = weightedSum s.sns (normalized s) := by
  rw [positionSum_eq]
  refine Finset.sum_congr rfl fun i _ => ?_
  rw [weight_eq, normAll_readAll_norm, normAll_readAll_sns]
  rfl

/-- Settles O43: the samples are read and normalized, and their exact sum is saturated once. -/
theorem snsPosWeighsTheNormalizedChannels : Obligations.SnsPosWeighsTheNormalizedChannels := by
  refine ⟨rfl, fun s => ⟨_, execSnsPos_eq s, ?_⟩⟩
  obtain ⟨-, hpid, henv, hrec, hevents⟩ := normAll_spec s.readAll
  have hsns := normAll_readAll_sns s
  have hnorm := normAll_readAll_norm s
  rw [normAll_readAll_positionSum]
  rw [funext (readAll_normExcess s)] at hevents
  generalize s.readAll.normAll = u at *
  have honly := ((onlyRecords_readAll s).trans hrec).trans
    (onlyRecords_noteSat u (-2147483647) 2147483647 (weightedSum s.sns (normalized s)))
  rw [complete_sns, setPhase_sns, setR0_sns, noteSat_sns]
  refine ⟨fun i => ⟨?raw, hnorm i⟩, sx_enc_limit32 _, ?recorded, rfl, ?chsel, ?frame, ?env,
    completed_of_onlyRecords honly rfl, .after honly rfl, ?pid⟩
  case raw => rw [hsns]; exact Vector.getElem_ofFn _
  case recorded => exact ((readAll_recorded s).after (hevents.trans (recorded_noteSat u _ _ _))).congr rfl rfl
  case chsel => rw [hsns]
  case frame => rw [hsns]
  case env => exact (noteSat_env ..).trans (henv.trans (readAll_env s))
  case pid => exact (noteSat_pid ..).trans (hpid.trans (readAll_pid s))

variable {s} {t : State}

/-- What `SNS.POS` answers in `NORM` and `R0`, and the events it records. -/
theorem position_of_exec (h : exec .snsPos s = .next t) :
    (∀ i : Fin 8, (t.sns.norm[i].toNat : Int) = normalized s i) ∧
    sx t.iface.r0 = limit32 (weightedSum s.sns (normalized s)) ∧
    Recorded s t
      ((∑ i : Fin 8, if s.sns.range[i].toNat = 0 then 0 else excess 0 255 (scaled s i)) +
        excess32 (weightedSum s.sns (normalized s))) := by
  obtain ⟨-, hspec⟩ := snsPosWeighsTheNormalizedChannels
  obtain ⟨u, hu, hchannels, hr0, hrec, -⟩ := hspec s
  obtain rfl : u = t := Host.Outcome.next.inj (hu.symm.trans h)
  exact ⟨fun i => (hchannels i).2, hr0, hrec⟩

/-! ### The floor formula (42_sensor.md R169) -/

/-- Channel `i` has strictly ordered bounds and the range between them (10_state.md R40). -/
def Sns.Calibrated (x : Sns) (i : Fin 8) : Prop :=
  x.min[i].toNat < x.max[i].toNat ∧ x.range[i].toNat = x.max[i].toNat - x.min[i].toNat

variable {i : Fin 8}

/-- `floor(255 * (c - MIN) / RANGE)` for the sample `v` clamped to `c` (42_sensor.md R169). -/
def floorOverRange (lo hi range v : Nat) : Nat := 255 * (max lo (min hi v) - lo) / range

theorem floorOverRange_le {lo hi v : Nat} (h : lo ≤ hi) : floorOverRange lo hi (hi - lo) v ≤ 255 := by
  refine Nat.div_le_of_le_mul ?_
  rw [Nat.mul_comm]
  exact Nat.mul_le_mul_right 255 (by omega)

theorem floorOverRange_low {lo hi range v : Nat} (hv : v ≤ lo) : floorOverRange lo hi range v = 0 := by
  have hclamped : max lo (min hi v) - lo = 0 := by omega
  rw [floorOverRange, hclamped, Nat.mul_zero, Nat.zero_div]

theorem floorOverRange_high {lo hi v : Nat} (h : lo < hi) (hv : hi ≤ v) : floorOverRange lo hi (hi - lo) v = 255 := by
  have hclamped : max lo (min hi v) - lo = hi - lo := by omega
  rw [floorOverRange, hclamped, Nat.mul_div_cancel _ (by omega)]

/-- The floor formula of channel `i`'s incoming sample. -/
def State.floorNorm (s : State) (i : Fin 8) : Nat :=
  floorOverRange s.sns.min[i].toNat s.sns.max[i].toNat s.sns.range[i].toNat (s.incoming i).toNat

/-- On a calibrated channel the division toward zero is a floor, of the sample's distance from the lower bound. -/
theorem scaled_eq (h : s.sns.Calibrated i) : scaled s i = s.floorNorm i := by
  obtain ⟨hlt, -⟩ := h
  rw [scaled, ← clamp_eq_limit, clamp_eq_max_min _ (by omega), Int.tdiv_eq_ediv_of_nonneg (by omega),
    State.floorNorm, floorOverRange, Int.natCast_ediv]
  congr 1
  omega

theorem scaled_bounds (h : s.sns.Calibrated i) : 0 ≤ scaled s i ∧ scaled s i ≤ 255 := by
  obtain ⟨hlt, hrange⟩ := id h
  have hle : s.floorNorm i ≤ 255 := by
    rw [State.floorNorm, hrange]
    exact floorOverRange_le hlt.le
  rw [scaled_eq h]
  omega

/-- On a calibrated channel the byte saturation changes nothing. -/
theorem limit_scaled (h : s.sns.Calibrated i) : limit 0 255 (scaled s i) = scaled s i := by
  obtain ⟨hlow, hhigh⟩ := scaled_bounds h
  exact clamp_of_mem hlow hhigh

/-- Settles O44: on calibrated channels the number before the byte saturation is the floor formula, a byte already. -/
theorem normalizationIsFloorOverTheRange : Obligations.NormalizationIsFloorOverTheRange := by
  intro s t h hcal
  obtain ⟨hnorm, -, hrec⟩ := position_of_exec h
  have hcalibrated (i : Fin 8) (hi : s.sns.range[i] ≠ 0) : s.sns.Calibrated i := hcal i hi
  constructor
  · rw [Finset.sum_eq_zero, Nat.zero_add] at hrec
    · exact hrec
    · intro i _
      split_ifs with h0
      · rfl
      · exact if_pos (limit_scaled (hcalibrated i (mt (byte_toNat_eq_zero _).mpr h0)))
  · intro i hi
    have hc := hcalibrated i hi
    have hfloor : t.sns.norm[i].toNat = s.floorNorm i := by
      rw [← Int.natCast_inj, hnorm i, normalized, if_neg (mt (byte_toNat_eq_zero _).mp hi), limit_scaled hc,
        scaled_eq hc]
    refine ⟨hfloor, fun hlow => ?_, fun hhigh => ?_, scaled_bounds hc⟩
    · rw [← byte_toNat_eq_zero, hfloor]
      exact floorOverRange_low hlow
    · refine BitVec.eq_of_toNat_eq (hfloor.trans ?_)
      rw [State.floorNorm, hc.2]
      exact floorOverRange_high hc.1 hhigh

/-! ### Mirrored patterns (42_sensor.md R174) -/

theorem limit32_neg (v : Int) : limit32 (-v) = -limit32 v := by
  unfold limit32 limit
  split_ifs <;> omega

/-- A mirrored pattern has the opposite sum of weights times antisymmetric coefficients. -/
theorem weightedSum_of_mirrored {x : Sns} (hanti : Antisymmetric x) {n m : Fin 8 → Int}
    (hmirror : ∀ i j : Fin 8, i.val + j.val = 7 → m i = n j) : weightedSum x m = -weightedSum x n := by
  have hrev : m = fun i => n i.rev := funext fun i => hmirror i i.rev (by rw [Fin.val_rev]; omega)
  rw [hrev]
  exact hanti.sum_rev fun i => weightOf x (n i)

/-- The position depends on the coefficients, the polarity, the mode and the threshold alone. -/
theorem weightedSum_congr {x y : Sns} (hcoef : y.coef = x.coef) (hpolarity : y.polarity = x.polarity)
    (hdigital : y.digital = x.digital) (hdthr : y.dthr = x.dthr) (n : Fin 8 → Int) :
    weightedSum y n = weightedSum x n := by
  simp only [weightedSum, weightOf, hcoef, hpolarity, hdigital, hdthr]

/-- Settles O45: mirroring a pattern negates its sum, and the saturation is symmetric. -/
theorem mirroredPatternNegatesThePosition : Obligations.MirroredPatternNegatesThePosition := by
  intro s t hanti h
  obtain ⟨-, hr0, -⟩ := position_of_exec h
  refine ⟨fun hsymmetric => ?_, fun s' t' hcoef hpolarity hdigital hdthr hmirror h' => ?_⟩
  · have hzero : weightedSum s.sns (normalized s) = 0 := by
      have := weightedSum_of_mirrored hanti hsymmetric
      omega
    rw [← enc_sx t.iface.r0, hr0, hzero]
    rfl
  · obtain ⟨-, hr0', -⟩ := position_of_exec h'
    rw [hr0', hr0, weightedSum_congr hcoef hpolarity hdigital hdthr, weightedSum_of_mirrored hanti hmirror, limit32_neg]

/-! ### The bound of the position (42_sensor.md R173) -/

theorem normalized_bounds (s : State) (i : Fin 8) : 0 ≤ normalized s i ∧ normalized s i ≤ 255 := by
  unfold normalized
  split
  · decide
  · exact limit_bounds _ (by decide)

/-- A weight is a byte, in either polarity and either mode. -/
theorem weightOf_bounds (x : Sns) {n : Int} (hn : 0 ≤ n ∧ n ≤ 255) : 0 ≤ weightOf x n ∧ weightOf x n ≤ 255 := by
  unfold weightOf
  dsimp only
  split_ifs <;> omega

theorem abs_weightedSum_le (x : Sns) {n : Fin 8 → Int} (hn : ∀ i, 0 ≤ n i ∧ n i ≤ 255) :
    |weightedSum x n| ≤ 255 * ∑ i : Fin 8, |sx x.coef[i]| := by
  rw [Finset.mul_sum]
  refine (Finset.abs_sum_le_sum_abs _ _).trans (Finset.sum_le_sum fun i _ => ?_)
  obtain ⟨hlow, hhigh⟩ := weightOf_bounds x (hn i)
  rw [abs_mul, abs_of_nonneg hlow]
  exact mul_le_mul_of_nonneg_right hhigh (abs_nonneg _)

theorem abs_limit32_le (v : Int) : |limit32 v| ≤ |v| := by
  have hlow := neg_abs_le v
  have hhigh := le_abs_self v
  rw [abs_le]
  unfold limit32 limit
  split_ifs <;> omega

/-- Settles O46: every weight is a byte, and 255 times 7680 is far inside the 32-bit range. -/
theorem positionIsBoundedByTheCoefficients : Obligations.PositionIsBoundedByTheCoefficients := by
  intro s t h
  obtain ⟨-, hr0, -⟩ := position_of_exec h
  have hsum := abs_weightedSum_le s.sns (normalized_bounds s)
  rw [hr0]
  refine ⟨(abs_limit32_le _).trans hsum, fun hsmall => ?_⟩
  have hkept : limit32 (weightedSum s.sns (normalized s)) = weightedSum s.sns (normalized s) := by
    obtain ⟨hlow, hhigh⟩ := abs_le.mp hsum
    exact clamp_of_mem (by omega) (by omega)
  exact ⟨hkept, if_pos hkept⟩

end Sys2Proof.Machine
end

section
/-! PROOFS. The completion codes (60_exceptions.md R190, R196): how each command ends, and the statement read off it. -/

namespace Sys2Proof.Safety

open Sys2Proof.Machine

theorem sx_eq_zero_iff (p : Word) : sx p = 0 ↔ p = 0 := by
  rw [← sx_zero]
  exact BitVec.toInt_inj

/-- The saturation counter and its flag are as they were. -/
def SaturationKept (s t : State) : Prop :=
  t.iface.satcnt = s.iface.satcnt ∧ t.iface.status.sat = s.iface.status.sat

/-- The ways command `i` can end, each with what brings it about (60_exceptions.md R190); a failure records no saturation event
(R196), and there is no way to end with `ILLEGAL`. -/
inductive Ending (i : Instr) (s t : State) : Prop
  | ok (hcode : t.iface.status.code = .ok) (hdivisor : i = .fxDiv → sx s.iface.a1 ≠ 0)
  | divzero (hcode : t.iface.status.code = .divzero) (hi : i = .fxDiv) (hdivisor : sx s.iface.a1 = 0)
      (hkept : SaturationKept s t)
  | cfgerr (hcode : t.iface.status.code = .cfgerr) (hi : i ∈ [Instr.fxSat, .pidCfg, .pidCfgstd, .pidSetout])
      (hkept : SaturationKept s t)

end Sys2Proof.Safety

namespace Sys2Proof.Machine

open Sys2Proof.Safety

variable (s : State)

theorem execFxDiv_ending : ∃ t, execFxDiv s = .next t ∧ Ending .fxDiv s t := by
  by_cases h0 : sx s.iface.a1 = 0
  · exact ⟨_, if_pos h0, .divzero rfl rfl h0 ⟨rfl, rfl⟩⟩
  · exact ⟨_, if_neg h0, .ok rfl fun _ => h0⟩

theorem execFxSat_ending : ∃ t, execFxSat s = .next t ∧ Ending .fxSat s t := by
  by_cases hbits : zx s.iface.a1 < 2 ∨ Config.W < zx s.iface.a1
  · exact ⟨_, if_pos hbits, .cfgerr rfl (by decide) ⟨rfl, rfl⟩⟩
  · exact ⟨_, if_neg hbits, .ok rfl nofun⟩

/-- Both configuring commands end with the report on their gains (41_pid.md R121). -/
theorem applyGains_ending {i : Instr} (hi : i = .pidCfg ∨ i = .pidCfgstd) (kp ki kd : Int) (oob : Bool) :
    Ending i s (s.applyGains kp ki kd oob) := by
  cases oob with
  | false => exact .ok rfl (by obtain rfl | rfl := hi <;> nofun)
  | true => exact .cfgerr rfl (by obtain rfl | rfl := hi <;> decide) ⟨rfl, rfl⟩

theorem execPidSetout_ending : ∃ t, execPidSetout s = .next t ∧ Ending .pidSetout s t := by
  by_cases hlegal : outLegal (zx s.iface.a0) (zx s.iface.a1) = true
  · exact ⟨_, if_pos hlegal, .ok rfl nofun⟩
  · exact ⟨_, if_neg hlegal, .cfgerr rfl (by decide) ⟨rfl, rfl⟩⟩

theorem execPidStep_ending : ∃ t, execPidStep s = .next t ∧ Ending .pidStep s t := by
  rw [execPidStep_eq]
  split <;> exact ⟨_, rfl, .ok rfl nofun⟩

/-- Every command ends in one of the three ways: the five with a failing path by their own cases, the others with `OK`. -/
theorem exec_ending (i : Instr) : ∃ t, exec i s = .next t ∧ Ending i s t := by
  cases i with
  | fxDiv => exact execFxDiv_ending s
  | fxSat => exact execFxSat_ending s
  | pidCfg => exact ⟨_, rfl, applyGains_ending s (.inl rfl) ..⟩
  | pidCfgstd => exact ⟨_, rfl, applyGains_ending s (.inr rfl) ..⟩
  | pidSetout => exact execPidSetout_ending s
  | pidStep => exact execPidStep_ending s
  | snsCal => exact ⟨_, execSnsCal_eq s, .ok rfl nofun⟩
  | snsPol => exact ⟨_, execSnsPol_eq s, .ok rfl nofun⟩
  | snsCoeff => exact ⟨_, execSnsCoeff_eq s, .ok rfl nofun⟩
  | snsPos => exact ⟨_, execSnsPos_eq s, .ok rfl nofun⟩
  | fxMul | fxMac | snsReset | snsRead | snsOnfloor | snsOnline => exact ⟨_, rfl, .ok rfl nofun⟩

/-- Settles O15: each of the three ways a command can end has its own code, and the two failing ones keep the counter. -/
theorem completionCodesByCommand : Obligations.CompletionCodesByCommand := by
  intro i s t h
  obtain ⟨u, hu, hending⟩ := exec_ending s i
  obtain rfl : u = t := Host.Outcome.next.inj (hu.symm.trans h)
  refine ⟨by decide, ?_⟩
  rw [← sx_eq_zero_iff]
  cases hending with
  | ok hcode hdivisor => simpa [hcode] using hdivisor
  | divzero hcode hi hdivisor hkept =>
    obtain ⟨hcnt, hsat⟩ := hkept
    simp [hcode, hi, hdivisor, hcnt, hsat]
  | cfgerr hcode hi hkept =>
    obtain ⟨hcnt, hsat⟩ := hkept
    have hne : i ≠ .fxDiv := by
      rintro rfl
      exact absurd hi (by decide)
    simpa [hcode, hne, hcnt, hsat] using hi

end Sys2Proof.Machine
end

section
/-! PROOFS. Reset and hazards (70_reset_and_hazards.md R210, R216, R223): the return of power, the completion of every step, and
the output held across a reconfiguration. -/

namespace Sys2Proof.Safety

open Sys2Proof.Machine

/-- A reconfiguration keeps the time and the output of the last computing step (41_pid.md R121, R124). -/
theorem PidAfter.lastTime_lastOut_of_reconfigures {i : Instr} {x y : Pid} (h : PidAfter i x y)
    (hi : i ∈ [Instr.pidCfg, .pidCfgstd, .pidSetout]) : y.lastTime = x.lastTime ∧ y.lastOut = x.lastOut := by
  cases i with
  | pidCfg | pidCfgstd =>
    obtain ⟨_, _, _, rfl⟩ := h
    exact ⟨rfl, rfl⟩
  | pidSetout =>
    obtain rfl | ⟨_, _, -, rfl⟩ := h
    · exact ⟨rfl, rfl⟩
    · exact ⟨rfl, rfl⟩
  | _ => exact absurd hi (by decide)

end Sys2Proof.Safety

namespace Sys2Proof.Machine

open Sys2Proof.Safety

variable (s : State)

theorem exec_completes (i : Instr) : ∃ t, exec i s = .next t := by
  obtain ⟨t, ht, -⟩ := exec_effect s i
  exact ⟨t, ht⟩

theorem transact_completes (x : Txn) : ∃ t, transact x s = .next t := by
  cases x with
  | rd n => exact ⟨_, transact_rd s n⟩
  | wr n p =>
    obtain ⟨i, -, hw⟩ | hw | ⟨l, -, -, hw⟩ | hw := transact_wr_cases s n p
    · rw [hw]
      exact exec_completes s i
    · exact ⟨_, hw⟩
    · exact ⟨_, hw⟩
    · exact ⟨_, hw⟩

theorem hostOp_completes (op : HostOp) : ∃ t, hostOp op s = .next t := by
  cases op with
  | txn x => exact transact_completes s x
  | sampled x v =>
    obtain ⟨t, ht⟩ := transact_completes (s.setSamples v) x
    exact ⟨_, transactWith_next s ht⟩
  | wrLast n => exact transact_completes s (.wr n (lastRead s.env.trace))
  | powerCycle => exact ⟨_, rfl⟩

theorem step_completes : ∃ t, step s = .next t := by
  cases hp : s.env.pending with
  | nil => exact ⟨s, step_idle s hp⟩
  | cons op rest =>
    rw [step_of_pending s hp]
    exact hostOp_completes (s.setPending rest) op

/-- Settles O2: a step runs at most one command, and every command completes. -/
theorem everyCommandAndStepCompletes : Obligations.EveryCommandAndStepCompletes :=
  ⟨fun i s => exec_completes s i, step_completes⟩

/-- Settles O10: the step takes the return of power, which resets the block and keeps its ports. -/
theorem powerCycleResetsTheBlock : Obligations.PowerCycleResetsTheBlock :=
  fun s _ hp => step_of_pending s hp

/-- Settles O35: the reconfiguration keeps the time and the output of the last computing step, so the next step in that tick
takes its same-tick branch. -/
theorem reconfigurationLeavesAStaleOutput : Obligations.ReconfigurationLeavesAStaleOutput := by
  intro i s t e hi ht
  obtain ⟨htime, hout⟩ := (effect_of_exec ht).pid.lastTime_lastOut_of_reconfigures hi
  exact ⟨_, pidStepInTheSameTickReturnsTheLastOutput (withStepOperands t e s.pid.lastTime) htime.symm, hout, rfl⟩

end Sys2Proof.Machine
end
